-- ==== Sys2Proof/Word.lean ====
section
/-! DEFINITION. The word and byte types: memory cells, registers and addresses are 16-bit words
(spec/00_scope.md R9, R11, R12); console characters and trap vectors are 8-bit (R9, R30). -/

namespace Sys2Proof

/-- A `Word16`: a 16-bit word, whose addition is modulo 2^16 (R11, R12). -/
abbrev Word := BitVec 16

/-- A console byte or character (R30), and the unit the memory list is kept in. -/
abbrev Byte := BitVec 8

end Sys2Proof
end

