-- ==== Sys2Proof/Syntax.lean ====
section
/-! DEFINITION. The instructions: one constructor per row of spec/opcode_table.json, in the table's order,
with the operand fields of 30_encoding.md R62, R63. The ignored bits of R65 are no part of an instruction. -/

namespace Sys2Proof

/-- The general registers R0 to R7, each nameable in every 3-bit register field (10_state.md R20). -/
inductive Reg where
  | r0 | r1 | r2 | r3 | r4 | r5 | r6 | r7
deriving DecidableEq, Repr

/-- The decoded instruction (30_encoding.md R66). Immediates and offsets keep the width of their field;
they are sign-extended where they are used (R64). -/
inductive Instr where
  /-- BR, 42_control.md R110: the three condition bits and PCoffset9. -/
  | br (n z p : Bool) (off : BitVec 9)
  /-- ADD, register form, 40_operate.md R80. -/
  | addReg (dr sr1 sr2 : Reg)
  /-- ADD, immediate form, R81. -/
  | addImm (dr sr1 : Reg) (imm : BitVec 5)
  /-- LD, 41_load_store.md R90. -/
  | ld (dr : Reg) (off : BitVec 9)
  /-- ST, R91. -/
  | st (sr : Reg) (off : BitVec 9)
  /-- JSR, 42_control.md R111. -/
  | jsr (off : BitVec 11)
  /-- JSRR, R112. -/
  | jsrr (base : Reg)
  /-- AND, register form, 40_operate.md R82. -/
  | andReg (dr sr1 sr2 : Reg)
  /-- AND, immediate form, R83. -/
  | andImm (dr sr1 : Reg) (imm : BitVec 5)
  /-- LDR, 41_load_store.md R92. -/
  | ldr (dr base : Reg) (off : BitVec 6)
  /-- STR, R93. -/
  | str (sr base : Reg) (off : BitVec 6)
  /-- RTI, 43_system.md R121. -/
  | rti
  /-- NOT, 40_operate.md R84. -/
  | not (dr sr : Reg)
  /-- LDI, 41_load_store.md R94. -/
  | ldi (dr : Reg) (off : BitVec 9)
  /-- STI, R95. -/
  | sti (sr : Reg) (off : BitVec 9)
  /-- JMP (RET when the base is R7), 42_control.md R113. -/
  | jmp (base : Reg)
  /-- RES, the illegal opcode; it carries its own word, which the halt reason records
  (30_encoding.md R66, 43_system.md R122). -/
  | res (word : Word)
  /-- LEA, 41_load_store.md R96. -/
  | lea (dr : Reg) (off : BitVec 9)
  /-- TRAP, 43_system.md R123: the trap vector. -/
  | trap (vect : BitVec 8)
deriving DecidableEq, Repr

end Sys2Proof
end

