-- ==== Sys2Proof/WellFormed.lean ====
section
/-! DEFINITION. Which instruction terms the machine can meet. The field types leave one thing to check:
the word a RES carries must itself be a RES word (30_encoding.md R61, R66). -/

namespace Sys2Proof

/-- The opcode field, bits 15:12 (30_encoding.md R61). -/
def opcodeField (w : Word) : BitVec 4 := w.extractLsb' 12 4

/-- An instruction is well formed when some word decodes to it: every term but a RES whose word
does not have opcode 1101. -/
def Instr.wellFormed : Instr → Bool
  | .br _ _ _ _ | .addReg _ _ _ | .addImm _ _ _ | .ld _ _ | .st _ _ | .jsr _ | .jsrr _ => true
  | .andReg _ _ _ | .andImm _ _ _ | .ldr _ _ _ | .str _ _ _ | .rti | .not _ _ => true
  | .ldi _ _ | .sti _ _ | .jmp _ | .lea _ _ | .trap _ => true
  | .res w => opcodeField w == 0xD#4

end Sys2Proof
end

