-- ==== Sys2Proof/Decode.lean ====
section
/-! DEFINITION. The decoder (spec/30_encoding.md R60 to R67), total on every 16-bit word: no word is rejected (R65).
After it the encoder, written from the format tables of R63, and the rows of spec/opcode_table.json as data. -/

namespace Sys2Proof

/-- A 3-bit register field read as an unsigned index 0..7 (R62, R64). -/
def Reg.ofField (b : BitVec 3) : Reg :=
  match b.toNat with
  | 0 => .r0
  | 1 => .r1
  | 2 => .r2
  | 3 => .r3
  | 4 => .r4
  | 5 => .r5
  | 6 => .r6
  | _ => .r7

/-- The index of a register as its 3-bit field. -/
def Reg.toField : Reg → BitVec 3
  | .r0 => 0 | .r1 => 1 | .r2 => 2 | .r3 => 3 | .r4 => 4 | .r5 => 5 | .r6 => 6 | .r7 => 7

/-- The register field at bits 11:9: DR, or SR of a store (R62). -/
def fieldDR (w : Word) : Reg := .ofField (w.extractLsb' 9 3)
/-- The register field at bits 8:6: SR1, BaseR, or SR of NOT (R62). -/
def fieldBase (w : Word) : Reg := .ofField (w.extractLsb' 6 3)
/-- The register field at bits 2:0: SR2 (R62). -/
def fieldSR2 (w : Word) : Reg := .ofField (w.extractLsb' 0 3)
/-- imm5, bits 4:0 (R62). -/
def fieldImm5 (w : Word) : BitVec 5 := w.extractLsb' 0 5
/-- offset6, bits 5:0 (R62). -/
def fieldOff6 (w : Word) : BitVec 6 := w.extractLsb' 0 6
/-- PCoffset9, bits 8:0 (R62). -/
def fieldOff9 (w : Word) : BitVec 9 := w.extractLsb' 0 9
/-- PCoffset11, bits 10:0 (R62). -/
def fieldOff11 (w : Word) : BitVec 11 := w.extractLsb' 0 11
/-- trapvect8, bits 7:0 (R62). -/
def fieldVect (w : Word) : BitVec 8 := w.extractLsb' 0 8

/-- The decode function of R66, by the opcode map of R61. -/
def decode (w : Word) : Instr :=
  match (opcodeField w).toNat with
  | 0x0 => .br (w.getLsbD 11) (w.getLsbD 10) (w.getLsbD 9) (fieldOff9 w)
  | 0x1 =>
    if w.getLsbD 5 then .addImm (fieldDR w) (fieldBase w) (fieldImm5 w)
    else .addReg (fieldDR w) (fieldBase w) (fieldSR2 w)
  | 0x2 => .ld (fieldDR w) (fieldOff9 w)
  | 0x3 => .st (fieldDR w) (fieldOff9 w)
  | 0x4 => if w.getLsbD 11 then .jsr (fieldOff11 w) else .jsrr (fieldBase w)
  | 0x5 =>
    if w.getLsbD 5 then .andImm (fieldDR w) (fieldBase w) (fieldImm5 w)
    else .andReg (fieldDR w) (fieldBase w) (fieldSR2 w)
  | 0x6 => .ldr (fieldDR w) (fieldBase w) (fieldOff6 w)
  | 0x7 => .str (fieldDR w) (fieldBase w) (fieldOff6 w)
  | 0x8 => .rti
  | 0x9 => .not (fieldDR w) (fieldBase w)
  | 0xA => .ldi (fieldDR w) (fieldOff9 w)
  | 0xB => .sti (fieldDR w) (fieldOff9 w)
  | 0xC => .jmp (fieldBase w)
  | 0xD => .res w
  | 0xE => .lea (fieldDR w) (fieldOff9 w)
  | _ => .trap (fieldVect w)

/-- The canonical word of an instruction: the fields of R63, with 0 in every ignored bit but the six of NOT,
which hold 111111 (R70). -/
def encode : Instr → Word
  | .br n z p off => 0x0#4 ++ (BitVec.ofBool n ++ (BitVec.ofBool z ++ (BitVec.ofBool p ++ off)))
  | .addReg dr sr1 sr2 => 0x1#4 ++ (dr.toField ++ (sr1.toField ++ (0#1 ++ (0#2 ++ sr2.toField))))
  | .addImm dr sr1 imm => 0x1#4 ++ (dr.toField ++ (sr1.toField ++ (1#1 ++ imm)))
  | .ld dr off => 0x2#4 ++ (dr.toField ++ off)
  | .st sr off => 0x3#4 ++ (sr.toField ++ off)
  | .jsr off => 0x4#4 ++ (1#1 ++ off)
  | .jsrr base => 0x4#4 ++ (0#1 ++ (0#2 ++ (base.toField ++ 0#6)))
  | .andReg dr sr1 sr2 => 0x5#4 ++ (dr.toField ++ (sr1.toField ++ (0#1 ++ (0#2 ++ sr2.toField))))
  | .andImm dr sr1 imm => 0x5#4 ++ (dr.toField ++ (sr1.toField ++ (1#1 ++ imm)))
  | .ldr dr base off => 0x6#4 ++ (dr.toField ++ (base.toField ++ off))
  | .str sr base off => 0x7#4 ++ (sr.toField ++ (base.toField ++ off))
  | .rti => 0x8#4 ++ 0#12
  | .not dr sr => 0x9#4 ++ (dr.toField ++ (sr.toField ++ 0x3F#6))
  | .ldi dr off => 0xA#4 ++ (dr.toField ++ off)
  | .sti sr off => 0xB#4 ++ (sr.toField ++ off)
  | .jmp base => 0xC#4 ++ (0#3 ++ (base.toField ++ 0#6))
  | .res w => w
  | .lea dr off => 0xE#4 ++ (dr.toField ++ off)
  | .trap v => 0xF#4 ++ (0#4 ++ v)

/-- The bits the decoder ignores in a word of this instruction (R65). RES is given none: its word is
recorded whole in the halt reason (R122; log 6). -/
def Instr.ignoredBits : Instr → Word
  | .addReg _ _ _ | .andReg _ _ _ => 0x0018
  | .not _ _ => 0x003F
  | .jsrr _ => 0x063F
  | .jmp _ => 0x0E3F
  | .trap _ => 0x0F00
  | .rti => 0x0FFF
  | .br _ _ _ _ | .addImm _ _ _ | .ld _ _ | .st _ _ | .jsr _ | .andImm _ _ _ | .ldr _ _ _ => 0
  | .str _ _ _ | .ldi _ _ | .sti _ _ | .res _ | .lea _ _ => 0

/-- One row of spec/opcode_table.json: a word falls under it when its bits under `mask` are `pattern`. -/
structure OpcodeRow where
  mnemonic : String
  pattern : Word
  mask : Word
deriving DecidableEq, Repr

/-- Whether a word falls under a row of the table. -/
def OpcodeRow.holds (r : OpcodeRow) (w : Word) : Bool := w &&& r.mask == r.pattern

/-- The row of spec/opcode_table.json that an instruction belongs to. -/
def Instr.row : Instr → OpcodeRow
  | .br _ _ _ _ => ⟨"BR", 0x0000, 0xF000⟩
  | .addReg _ _ _ => ⟨"ADD", 0x1000, 0xF020⟩
  | .addImm _ _ _ => ⟨"ADD", 0x1020, 0xF020⟩
  | .ld _ _ => ⟨"LD", 0x2000, 0xF000⟩
  | .st _ _ => ⟨"ST", 0x3000, 0xF000⟩
  | .jsr _ => ⟨"JSR", 0x4800, 0xF800⟩
  | .jsrr _ => ⟨"JSRR", 0x4000, 0xF800⟩
  | .andReg _ _ _ => ⟨"AND", 0x5000, 0xF020⟩
  | .andImm _ _ _ => ⟨"AND", 0x5020, 0xF020⟩
  | .ldr _ _ _ => ⟨"LDR", 0x6000, 0xF000⟩
  | .str _ _ _ => ⟨"STR", 0x7000, 0xF000⟩
  | .rti => ⟨"RTI", 0x8000, 0xF000⟩
  | .not _ _ => ⟨"NOT", 0x9000, 0xF000⟩
  | .ldi _ _ => ⟨"LDI", 0xA000, 0xF000⟩
  | .sti _ _ => ⟨"STI", 0xB000, 0xF000⟩
  | .jmp _ => ⟨"JMP", 0xC000, 0xF000⟩
  | .res _ => ⟨"RES", 0xD000, 0xF000⟩
  | .lea _ _ => ⟨"LEA", 0xE000, 0xF000⟩
  | .trap _ => ⟨"TRAP", 0xF000, 0xF000⟩

/-- The rows of spec/opcode_table.json, in its order. -/
def opcodeTable : List OpcodeRow :=
  [⟨"BR", 0x0000, 0xF000⟩, ⟨"ADD", 0x1000, 0xF020⟩, ⟨"ADD", 0x1020, 0xF020⟩, ⟨"LD", 0x2000, 0xF000⟩,
    ⟨"ST", 0x3000, 0xF000⟩, ⟨"JSR", 0x4800, 0xF800⟩, ⟨"JSRR", 0x4000, 0xF800⟩,
    ⟨"AND", 0x5000, 0xF020⟩, ⟨"AND", 0x5020, 0xF020⟩, ⟨"LDR", 0x6000, 0xF000⟩]
  ++ [⟨"STR", 0x7000, 0xF000⟩, ⟨"RTI", 0x8000, 0xF000⟩, ⟨"NOT", 0x9000, 0xF000⟩,
    ⟨"LDI", 0xA000, 0xF000⟩, ⟨"STI", 0xB000, 0xF000⟩, ⟨"JMP", 0xC000, 0xF000⟩,
    ⟨"RES", 0xD000, 0xF000⟩, ⟨"LEA", 0xE000, 0xF000⟩, ⟨"TRAP", 0xF000, 0xF000⟩]

/-- The instruction the decoder reads from an instruction whose bits are `w`, numbered as
spec/opcode_table.json numbers them. Every row has 16 bits, one memory word (R60); bits from `nbits` up are 0.
More than one word is no instruction of this machine. -/
def decodeTableWord (nbits w : Nat) : Option Instr :=
  if nbits ≤ 16 then some (decode (BitVec.ofNat 16 (w % 2 ^ nbits))) else none

end Sys2Proof
end

