-- ==== Sys2Proof/Config.lean ====
section
/-! DEFINITION. The open parameters of spec/00_scope.md R10 and the host's free poll answers.
The constants have no body: no proof can use a value of theirs, so every statement holds for all of them. -/

namespace Sys2Proof

/-- Whether the memory reads of PUTS and PUTSP go through the keyboard-status side effect
(20_memory.md R44, decision D12). -/
inductive StringReadMode where
  /-- The walk looks the cells up with no side effect. -/
  | plain
  /-- The walk reads through the Memory Unit, so that a read of 0xFE00 polls. -/
  | polling
deriving DecidableEq, Repr, Inhabited

/-- The open parameters that the model takes as an argument (00_scope.md R10). -/
structure Params where
  /-- `in_prompt`: the bytes IN writes before it reads (44_trap_routines.md R134, D18). -/
  inPrompt : List Byte
  /-- `halt_notice`: the bytes HALT writes (R136, D18). -/
  haltNotice : List Byte
  /-- `string_read_mode` (20_memory.md R44, D12). -/
  stringReadMode : StringReadMode
  /-- `console_eof`: what a console read returns once the input is exhausted;
  with `none` the read never returns (10_state.md R30, D11). -/
  consoleEof : Option Word
deriving DecidableEq, Repr, Inhabited

/-- The parameters of the machine at hand, left open (log 14). -/
opaque Config.params : Params

/-- The host's answer to the n-th poll that State lists no answer for: whether a keystroke is pending.
A free value (93_implementation_defined.md I7, decision D9; log 9). -/
opaque Config.keyPending : Nat → Bool

end Sys2Proof
end

