-- ==== Sys2Proof/Machine/State.lean ====
section
/-! DEFINITION. Everything the spec gives the machine as plain data (spec/10_state.md R20 to R31),
the reset state (R32, 70_reset_and_hazards.md R170, R171), and the reasons a step can stop. -/

namespace Sys2Proof.Machine

/-- The condition register: exactly one of three states (10_state.md R23). -/
inductive Cond where
  | neg | zero | pos
deriving DecidableEq, Repr

/-- The eight general registers (R20). -/
structure RegFile where
  r0 : Word
  r1 : Word
  r2 : Word
  r3 : Word
  r4 : Word
  r5 : Word
  r6 : Word
  r7 : Word
deriving DecidableEq, Repr

/-- Why the engine halted (R27, 60_exceptions.md R150). -/
inductive HaltReason where
  /-- Normal termination by TRAP HALT. -/
  | haltTrap
  /-- The RES opcode: the instruction word and the address it was fetched from. -/
  | illegalOpcode (word addr : Word)
  /-- A TRAP with an unknown vector: the vector and the address of the TRAP. -/
  | illegalTrapVector (vector : BitVec 8) (addr : Word)
  /-- The host asked for termination. -/
  | interruptRequested
deriving DecidableEq, Repr

/-- The run state, with its reason when HALTED (R27). -/
inductive RunState where
  | running
  | halted (reason : HaltReason)
deriving DecidableEq, Repr

/-- The memory as a sorted list of cells that hold something else than the reset contents.
The 16-bit word at address a (R28) stands in the two keys 2a (low byte) and 2a + 1 (high byte);
no operation reads or writes less than the pair (R47; log 1). -/
abbrev Memory := List Host.Cell

/-- The state of the machine. -/
structure State where
  /-- R0 to R7 (R20). -/
  regs : RegFile
  /-- The address of the next instruction to fetch (R22). -/
  pc : Word
  /-- The condition register (R23). -/
  cond : Cond
  /-- The 65536 words of memory, KBSR and KBDR among them (R28). -/
  mem : Memory
  /-- The run state and halt reason (R27). -/
  run : RunState
  /-- The characters the host has still to supply, in order (R30, R31; log 8). -/
  input : List Byte
  /-- The bytes put so far; append-only (R30). -/
  output : List Byte
  /-- The host's termination request (R30, 60_exceptions.md R155). -/
  interruptRequested : Bool
  /-- The host's pending-keystroke answers to the polls to come (R31, decision D9; log 9). -/
  pollAnswers : List Bool
  /-- The model's own counter of poll answers drawn from `Config.keyPending` after `pollAnswers` ran out (log 9). -/
  draws : Nat
  /-- The model's own schedule of the termination request: `some k` when the host raises it at the
  (k+1)-th point from now at which it can take effect, `none` when it never does (R155, I13; log 10). -/
  requestIn : Option Nat
deriving DecidableEq, Repr

/-- A machine that makes no further step, in the terms of the spec. -/
inductive Fault where
  /-- Raised by `step` on a HALTED engine: no transition leaves HALTED (10_state.md R27, 43_system.md R120).
  Safe: the machine does nothing there (log 11). -/
  | engineHalted
  /-- Raised by GETC and IN when the input is exhausted, `console_eof` is `none` and no termination request
  is to come: the cycle is blocked for ever (43_system.md R124 (e)). It carries the state the cycle stands in,
  with R7 written and the prompt of IN put (44_trap_routines.md R134). Safe (log 12). -/
  | consoleReadBlocked (standing : State)
  /-- Raised by PUTS and PUTSP when the walk never meets a zero word and no termination request is to come
  (44_trap_routines.md R133, R135, decision D13). Such a walk goes on putting bytes and stands in no state; what it
  has put at a moment is what a request at that moment leaves (60_exceptions.md R155). Safe (log 13). -/
  | stringWalkNeverEnds
deriving DecidableEq, Repr

/-- A step the model gives no meaning. -/
inductive Refusal where
  /-- Raised by an arm of `exec` for an instruction not modelled yet; no arm does so. Safe. -/
  | notModelled (mnemonic : String)
deriving DecidableEq, Repr

/-- The outcome of a step of this machine. -/
abbrev Outcome := Host.Outcome State Fault Refusal

/-- R0 to R7 at reset: 0x0000 each (R32 by the spec's decision D6; DESIGN CHOICE, log 3). -/
def RegFile.reset : RegFile := ⟨0, 0, 0, 0, 0, 0, 0, 0⟩

/-- The machine right after reset, before any image is loaded (R32, R170, R171). The host's fields, which
the spec gives no reset value, are those of a host that has promised nothing yet (logs 8, 9, 10). -/
def State.reset : State where
  regs := .reset
  pc := 0x3000
  cond := .zero
  mem := []
  run := .running
  input := []
  output := []
  interruptRequested := false
  pollAnswers := []
  draws := 0
  requestIn := none

end Sys2Proof.Machine
end

