-- ==== Sys2Proof/Machine/Memory.lean ====
section
/-! DEFINITION. The cells of memory (spec/20_memory.md R40, R47 to R50): lookup and plain storage of whole words.
The list stays canonical: keys strictly rising, below 2 * 65536, and no byte equal to the reset contents. -/

namespace Sys2Proof.Machine

/-- The low byte of a word. -/
def lowByte (w : Word) : Byte := w.extractLsb' 0 8
/-- The high byte of a word. -/
def highByte (w : Word) : Byte := w.extractLsb' 8 8

/-- What an unlisted byte reads as: memory is 0x0000 in every cell at reset (10_state.md R32). -/
def unlistedByte : Byte := 0

/-- The byte under a key. -/
def Memory.readByte : Memory → Nat → Byte
  | [], _ => unlistedByte
  | (k, b) :: rest, a => if k = a then b else Memory.readByte rest a

/-- The list with nothing under a key. -/
def Memory.eraseByte : Memory → Nat → Memory
  | [], _ => []
  | (k, b) :: rest, a =>
    if k = a then Memory.eraseByte rest a else (k, b) :: Memory.eraseByte rest a

/-- The list with a cell put before the first larger key. -/
def Memory.insertByte : Memory → Nat → Byte → Memory
  | [], a, v => [(a, v)]
  | (k, b) :: rest, a, v =>
    if a < k then (a, v) :: (k, b) :: rest else (k, b) :: Memory.insertByte rest a v

/-- The list after storing a byte under a key, in canonical form. -/
def Memory.writeByte (m : Memory) (a : Nat) (v : Byte) : Memory :=
  if v = unlistedByte then m.eraseByte a else (m.eraseByte a).insertByte a v

/-- `Peek`: the stored word at an address, with no side effect (00_scope.md R14). -/
def Memory.peek (m : Memory) (a : Word) : Word :=
  m.readByte (2 * a.toNat + 1) ++ m.readByte (2 * a.toNat)

/-- Plain storage of a word at an address (20_memory.md R42). -/
def Memory.poke (m : Memory) (a v : Word) : Memory :=
  (m.writeByte (2 * a.toNat) (lowByte v)).writeByte (2 * a.toNat + 1) (highByte v)

/-- The canonical form of the list. -/
abbrev Memory.wf (m : Memory) : Prop :=
  m.Pairwise (fun c d => c.1 < d.1) ∧ ∀ c ∈ m, c.1 < 2 * 65536 ∧ c.2 ≠ unlistedByte

end Sys2Proof.Machine
end

