-- ==== Sys2Proof/Machine/Ops.lean ====
section
/-! DEFINITION. The named operations over registers, the engine, the host and memory
(spec/00_scope.md R14, R15; 10_state.md R27, R30; 20_memory.md R41 to R43; 43_system.md R120;
60_exceptions.md R150, R155, R157). -/

namespace Sys2Proof.Machine

/-! ## Registers -/

/-- The word a register of the file holds. -/
def RegFile.get (f : RegFile) : Reg → Word
  | .r0 => f.r0 | .r1 => f.r1 | .r2 => f.r2 | .r3 => f.r3
  | .r4 => f.r4 | .r5 => f.r5 | .r6 => f.r6 | .r7 => f.r7

/-- The file with one register written; none is hardwired (10_state.md R20). -/
def RegFile.set (f : RegFile) (r : Reg) (v : Word) : RegFile :=
  match r with
  | .r0 => { f with r0 := v } | .r1 => { f with r1 := v }
  | .r2 => { f with r2 := v } | .r3 => { f with r3 := v }
  | .r4 => { f with r4 := v } | .r5 => { f with r5 := v }
  | .r6 => { f with r6 := v } | .r7 => { f with r7 := v }

/-- `x[i]` (00_scope.md R14). -/
def State.reg (s : State) (r : Reg) : Word := s.regs.get r
/-- `x[i] <- v` (R14). -/
def State.setReg (s : State) (r : Reg) (v : Word) : State := { s with regs := s.regs.set r v }
/-- `pc <- target` (R14). -/
def State.setPc (s : State) (target : Word) : State := { s with pc := target }
/-- `cond <- c` (R14). -/
def State.setCond (s : State) (c : Cond) : State := { s with cond := c }
/-- `MemWrite(addr, 1, v)`: plain storage for every address, the memory-mapped ones too (20_memory.md R42). -/
def State.memWrite (s : State) (a v : Word) : State := { s with mem := s.mem.poke a v }
/-- `ConsolePut(b)`, of several bytes in order: appended verbatim (10_state.md R30, D19, D21). -/
def State.put (s : State) (bytes : List Byte) : State := { s with output := s.output ++ bytes }

/-! ## Halting, conditions, trap entry -/

/-- `halt(reason)` (00_scope.md R15, 10_state.md R27). -/
def State.halt (s : State) (why : HaltReason) : State := { s with run := .halted why }

/-- `raise E(info)`: the one way a condition is taken. It records the condition as the halt reason and ends the run;
what the instruction did before stays, nothing is rolled back (60_exceptions.md R150, R151). -/
def raiseCondition (e : HaltReason) (s : State) : State := s.halt e

/-- The address the instruction now executing was fetched from: the fetch has left pc one above it
(43_system.md R120, 10_state.md R22; DEDUCED, log 7). -/
def State.instrAddr (s : State) : Word := s.pc - 1

/-- Trap entry saves one value, the return address in R7, and changes no mode, mask or stack
(60_exceptions.md R157, 43_system.md R123). The write does not call setcc (10_state.md R25). -/
def trapEntry (s : State) : State := s.setReg .r7 s.pc

/-- Trap return: the engine continues at pc, and nothing is restored (60_exceptions.md R159). -/
def trapReturn (s : State) : State := s

/-! ## Waiting on the host -/

/-- What a part of a cycle comes to. -/
inductive Ran (α : Type) where
  /-- It ended with a value. -/
  | done (a : α) (s : State)
  /-- The termination request abandoned the cycle; the engine is HALTED (60_exceptions.md R155). -/
  | abandoned (s : State)
  /-- It never ends. -/
  | stuck (why : Fault)
deriving Repr

/-- One part of a cycle after another (00_scope.md R15). -/
def Ran.bind {α β : Type} (r : Ran α) (k : α → State → Ran β) : Ran β :=
  match r with
  | .done a s => k a s
  | .abandoned s => .abandoned s
  | .stuck f => .stuck f

/-- The outcome of a cycle whose last part ends with a state made from its value. -/
def Ran.toNext {α : Type} (r : Ran α) (k : α → State → State) : Outcome :=
  match r with
  | .done a s => .next (k a s)
  | .abandoned s => .next s
  | .stuck f => .fault f

/-- The host reaches a point at which its termination request can take effect: the start of a cycle, or a wait.
A request that is due is raised; a later one comes one point nearer (60_exceptions.md R155, I13; log 10). -/
def State.hostTurn (s : State) : State :=
  match s.requestIn with
  | none => s
  | some 0 => { s with interruptRequested := true, requestIn := none }
  | some (k + 1) => { s with requestIn := some k }

/-- The engine halts on the termination request (R155). -/
def State.terminate (s : State) : State :=
  raiseCondition .interruptRequested { s with interruptRequested := true, requestIn := none }

/-- A point of a cycle at which the request abandons it (R155: a console read, a poll, a string walk, there before each cell
and before each byte put). -/
def waitPoint (s : State) : Ran Unit :=
  if s.hostTurn.interruptRequested then .abandoned s.hostTurn.terminate else .done () s.hostTurn

/-- The host's answer to one poll: the next listed one, else a free value (10_state.md R30, D9, I7; log 9). -/
def State.pollAnswer (s : State) : Bool × State :=
  match s.pollAnswers with
  | b :: rest => (b, { s with pollAnswers := rest })
  | [] => (Config.keyPending s.draws, { s with draws := s.draws + 1 })

/-- What a poll gets, once the host has answered: the next character of the input when a keystroke is pending,
which is taken from the input (R30, D8). With no character left none is pending (log 9). -/
def State.pollResult (s : State) : Option Byte × State :=
  let (pending, s') := s.pollAnswer
  match s'.input with
  | [] => (none, s')
  | c :: rest => if pending then (some c, { s' with input := rest }) else (none, s')

/-- `ConsolePoll()` (R30). The poll is a wait, which the termination request can abandon (60_exceptions.md R155). -/
def consolePoll (s : State) : Ran (Option Byte) :=
  (waitPoint s).bind fun _ s' => .done s'.pollResult.1 s'.pollResult.2

/-- `ConsoleGet()` (R30): the next character, zero-extended (D10). On an exhausted input `console_eof` governs:
its word is the result, or the read never returns; then a request still to come arrives in the wait (R155),
and with none to come the cycle stands where it is. -/
def consoleGet (eof : Option Word) (s : State) : Ran Word :=
  (waitPoint s).bind fun _ s' =>
    match s'.input, eof with
    | c :: rest, _ => .done (c.zeroExtend 16) { s' with input := rest }
    | [], some w => .done w s'
    | [], none =>
      match s'.requestIn with
      | some _ => .abandoned s'.terminate
      | none => .stuck (.consoleReadBlocked s')

/-! ## Memory accesses -/

/-- KBSR, the keyboard status register (20_memory.md R46, R51). -/
def kbsr : Word := 0xFE00
/-- KBDR, the keyboard data register (R45, R51). -/
def kbdr : Word := 0xFE02

/-- What a poll leaves in memory (20_memory.md R43): a key sets KBSR to 0x8000 (D7) and latches the character into KBDR;
no key clears KBSR. -/
def latchKey (key : Option Byte) (s : State) : State :=
  match key with
  | some c => (s.memWrite kbsr 0x8000).memWrite kbdr (c.zeroExtend 16)
  | none => s.memWrite kbsr 0x0000

/-- `KbsrPoll()` (R43). -/
def kbsrPoll (s : State) : Ran Unit :=
  (consolePoll s).bind fun key s' => .done () (latchKey key s')

/-- `MemRead(addr, 1)`: a read of KBSR polls first; a read of any other address is a pure lookup (R41). -/
def memRead (a : Word) (s : State) : Ran Word :=
  if a = kbsr then (kbsrPoll s).bind fun _ s' => .done (s'.mem.peek a) s'
  else .done (s.mem.peek a) s

/-- The fetch: the word at pc through the Memory Unit, and pc one further, modulo 2^16
(43_system.md R120, 10_state.md R22). -/
def fetch (s : State) : Ran Word :=
  (memRead s.pc s).bind fun w s' => .done w (s'.setPc (s.pc + 1))

/-- The state with a word stored where the next instruction is fetched. -/
def placeAtPc (w : Word) (s : State) : State := s.memWrite s.pc w

end Sys2Proof.Machine
end

