-- ==== Sys2Proof/Machine/Flags.lean ====
section
/-! DEFINITION. The condition register: the Condition-Flag Updater (spec/10_state.md R24), the one-hot encoding
(R23), and the test BR makes (42_control.md R110). -/

namespace Sys2Proof.Machine

/-- The condition a 16-bit value gives: ZERO, else NEG by bit 15, else POS (R24). -/
def condOf (v : Word) : Cond :=
  if v = 0 then .zero else if v.msb then .neg else .pos

/-- `setcc(v)` (R24). -/
def setcc (v : Word) (s : State) : State := s.setCond (condOf v)

/-- A flag writer defines its destination register and then calls setcc on what that register holds (R24, R25). -/
def defineReg (dr : Reg) (v : Word) (s : State) : State :=
  setcc ((s.setReg dr v).reg dr) (s.setReg dr v)

/-- COND as the 16-bit word of R23: one-hot in bits 2:0, the rest 0. -/
def Cond.toWord : Cond → Word
  | .neg => 0b100
  | .zero => 0b010
  | .pos => 0b001

/-- The condition field of BR as a mask: n is bit 2, z bit 1, p bit 0 (R110). -/
def nzpMask (n z p : Bool) : BitVec 3 := BitVec.ofBool n ++ (BitVec.ofBool z ++ BitVec.ofBool p)

/-- Whether the condition field intersects COND (R110, R26). -/
def intersects (n z p : Bool) (c : Cond) : Bool := (nzpMask n z p).zeroExtend 16 &&& c.toWord != 0

end Sys2Proof.Machine
end

