-- ==== Sys2Proof/Machine/Operands.lean ====
section
/-! DEFINITION. Operand forms: sign extension (spec/00_scope.md R13), operand assembly (30_encoding.md R64)
and the addressing modes of 41_load_store.md R97. Every address sum is modulo 2^16 (20_memory.md R50). -/

namespace Sys2Proof.Machine

/-- `sext_k(v)`: the 16-bit word whose low bits equal v and whose top bits all equal v's highest bit (R13). -/
def sext {k : Nat} (v : BitVec k) : Word := v.signExtend 16

/-- PC-relative: `pc + sext(offset)`, pc being the incremented PC (R97; 9 bits, and 11 in JSR). -/
def pcRelative {k : Nat} (off : BitVec k) (s : State) : Word := s.pc + sext off

/-- Base plus offset: `x[BaseR] + sext_6(offset6)` (R97). -/
def basePlusOffset (base : Reg) (off : BitVec 6) (s : State) : Word := s.reg base + sext off

/-- Indirect: the address is itself read through the Memory Unit, from a PC-relative cell (R97, R94, R95). -/
def indirect (off : BitVec 9) (s : State) : Ran Word := memRead (pcRelative off s) s

end Sys2Proof.Machine
end

