-- ==== Sys2Proof/Machine/Control.lean ====
section
/-! DEFINITION. Control transfer (spec/42_control.md R110 to R113). pc is already the incremented PC;
none of these writes COND. -/

namespace Sys2Proof.Machine

/-- BR (R110): taken when the condition field intersects COND. -/
def execBr (n z p : Bool) (off : BitVec 9) (s : State) : Outcome :=
  .next (if intersects n z p s.cond then s.setPc (pcRelative off s) else s)

/-- JSR (R111). -/
def execJsr (off : BitVec 11) (s : State) : Outcome :=
  .next ((s.setReg .r7 s.pc).setPc (pcRelative off s))

/-- JSRR (R112): R7 is written before BaseR is read, so JSRR R7 continues at the next instruction (D14; log 16). -/
def execJsrr (base : Reg) (s : State) : Outcome :=
  .next ((s.setReg .r7 s.pc).setPc ((s.setReg .r7 s.pc).reg base))

/-- JMP, and RET as JMP R7 (R113). -/
def execJmp (base : Reg) (s : State) : Outcome :=
  .next (s.setPc (s.reg base))

end Sys2Proof.Machine
end

