-- ==== Sys2Proof/Machine/LoadStore.lean ====
section
/-! DEFINITION. Loads, stores and LEA (spec/41_load_store.md R90 to R96). Loads read through the Memory Unit, so a read
of KBSR polls and the termination request can abandon the instruction in that poll (60_exceptions.md R155). -/

namespace Sys2Proof.Machine

/-- LD (R90). -/
def execLd (dr : Reg) (off : BitVec 9) (s : State) : Outcome :=
  (memRead (pcRelative off s) s).toNext (defineReg dr)

/-- ST (R91). -/
def execSt (sr : Reg) (off : BitVec 9) (s : State) : Outcome :=
  .next (s.memWrite (pcRelative off s) (s.reg sr))

/-- LDR (R92): the base is read before DR is written. -/
def execLdr (dr base : Reg) (off : BitVec 6) (s : State) : Outcome :=
  (memRead (basePlusOffset base off s) s).toNext (defineReg dr)

/-- STR (R93). -/
def execStr (sr base : Reg) (off : BitVec 6) (s : State) : Outcome :=
  .next (s.memWrite (basePlusOffset base off s) (s.reg sr))

/-- LDI (R94): the pointer cell, then the data cell, both through the Memory Unit (20_memory.md R54). -/
def execLdi (dr : Reg) (off : BitVec 9) (s : State) : Outcome :=
  ((indirect off s).bind memRead).toNext (defineReg dr)

/-- STI (R95): the pointer is read through the Memory Unit, then the register is stored where it points. -/
def execSti (sr : Reg) (off : BitVec 9) (s : State) : Outcome :=
  (indirect off s).toNext fun ea s' => s'.memWrite ea (s'.reg sr)

/-- LEA (R96): the address itself, which also sets the flags (90_conflicts.md C5); no memory is read. -/
def execLea (dr : Reg) (off : BitVec 9) (s : State) : Outcome :=
  .next (defineReg dr (pcRelative off s) s)

end Sys2Proof.Machine
end

