-- ==== Sys2Proof/Machine/Operate.lean ====
section
/-! DEFINITION. The operate instructions (spec/40_operate.md R80 to R84). Sources are read before DR is written,
and the flags follow the new value of DR (70_reset_and_hazards.md R177). -/

namespace Sys2Proof.Machine

/-- ADD, register form (R80): the sum modulo 2^16. -/
def execAddReg (dr sr1 sr2 : Reg) (s : State) : Outcome :=
  .next (defineReg dr (s.reg sr1 + s.reg sr2) s)

/-- ADD, immediate form (R81). -/
def execAddImm (dr sr1 : Reg) (imm : BitVec 5) (s : State) : Outcome :=
  .next (defineReg dr (s.reg sr1 + sext imm) s)

/-- AND, register form (R82). -/
def execAndReg (dr sr1 sr2 : Reg) (s : State) : Outcome :=
  .next (defineReg dr (s.reg sr1 &&& s.reg sr2) s)

/-- AND, immediate form (R83): the immediate is sign-extended before the AND. -/
def execAndImm (dr sr1 : Reg) (imm : BitVec 5) (s : State) : Outcome :=
  .next (defineReg dr (s.reg sr1 &&& sext imm) s)

/-- NOT (R84): the 16-bit complement. -/
def execNot (dr sr : Reg) (s : State) : Outcome :=
  .next (defineReg dr (~~~(s.reg sr)) s)

end Sys2Proof.Machine
end

