-- ==== Sys2Proof/Machine/Traps.lean ====
section
/-! DEFINITION. The trap service routines (spec/44_trap_routines.md R130 to R137), which run after R7 is written.
They take the open parameters as an argument. No routine writes pc. -/

namespace Sys2Proof.Machine

/-- GETC (R131): one character into R0 without echo, flags from R0. -/
def trapGetc (p : Params) (s : State) : Outcome :=
  (consoleGet p.consoleEof s).toNext fun c s' => trapReturn (defineReg .r0 c s')

/-- OUT (R132): the low byte of R0. -/
def trapOut (s : State) : Outcome :=
  .next (trapReturn (s.put [lowByte (s.reg .r0)]))

/-- A string routine's read of a cell: `Peek` in plain mode, `MemRead` in polling mode (20_memory.md R44, D12).
The two differ at KBSR only, so the mode is looked at only there. -/
def readCell (mode : StringReadMode) (a : Word) (s : State) : Ran Word :=
  if a = kbsr then
    match mode with
    | .plain => .done (s.mem.peek a) s
    | .polling => memRead a s
  else .done (s.mem.peek a) s

/-- The puts of one cell of a walk, in order. The walk has not ended, so the request can abandon it before any of them;
the bytes already put stay, and so does what the cell's poll wrote (60_exceptions.md R155). -/
def putEach : List Byte → State → Ran Unit
  | [], s => .done () s
  | b :: rest, s => (waitPoint s).bind fun _ s' => putEach rest (s'.put [b])

/-- The walk of PUTS and PUTSP: cells at rising addresses, each emitted before the next is read, up to the first
all-zero word; the address wraps (R133, R135, D13; 20_memory.md R54). The request can abandon the walk before each cell,
in a polled read and before each put (60_exceptions.md R155). The count bounds the cells looked at. -/
def stringWalk (mode : StringReadMode) (emit : Word → List Byte) : Nat → Word → State → Ran Unit
  | 0, _, _ => .stuck .stringWalkNeverEnds
  | n + 1, a, s =>
    (waitPoint s).bind fun _ s1 =>
      (readCell mode a s1).bind fun w s2 =>
        if w = 0 then .done () s2
        else (putEach (emit w) s2).bind fun _ s3 => stringWalk mode emit n (a + 1) s3

/-- A count that no walk that ends can reach: one lap of memory for each character a poll can take, two more,
and the points before a scheduled request (log 13). -/
def walkBound (s : State) : Nat :=
  65536 * (s.input.length + 2) + s.requestIn.getD 0 + 1

/-- What PUTS writes for a cell: the low byte (R133). -/
def emitPuts (w : Word) : List Byte := [lowByte w]

/-- What PUTSP writes for a cell: the low byte always, the high byte only if nonzero (R135). -/
def emitPutsp (w : Word) : List Byte :=
  if highByte w = 0 then [lowByte w] else [lowByte w, highByte w]

/-- PUTS (R133): one character per cell, from the address in R0. -/
def trapPuts (p : Params) (s : State) : Outcome :=
  (stringWalk p.stringReadMode emitPuts (walkBound s) (s.reg .r0) s).toNext fun _ s' => trapReturn s'

/-- PUTSP (R135): two characters per cell. -/
def trapPutsp (p : Params) (s : State) : Outcome :=
  (stringWalk p.stringReadMode emitPutsp (walkBound s) (s.reg .r0) s).toNext fun _ s' => trapReturn s'

/-- IN (R134): the prompt, one character, its echo, then R0 and the flags. -/
def trapIn (p : Params) (s : State) : Outcome :=
  (consoleGet p.consoleEof (s.put p.inPrompt)).toNext fun c s' =>
    trapReturn (defineReg .r0 c (s'.put [lowByte c]))

/-- HALT (R136): the notice, then the normal end. -/
def trapHalt (p : Params) (s : State) : Outcome :=
  .next (raiseCondition .haltTrap (s.put p.haltNotice))

/-- An unknown vector (R137): fatal, with the vector and the address of the TRAP; R7 is already written (D15; log 17). -/
def trapUnknown (v : BitVec 8) (s : State) : Outcome :=
  .next (raiseCondition (.illegalTrapVector v s.instrAddr) s)

/-- TrapDispatch (R130). -/
def trapDispatch (p : Params) (v : BitVec 8) (s : State) : Outcome :=
  match v.toNat with
  | 0x20 => trapGetc p s
  | 0x21 => trapOut s
  | 0x22 => trapPuts p s
  | 0x23 => trapIn p s
  | 0x24 => trapPutsp p s
  | 0x25 => trapHalt p s
  | _ => trapUnknown v s

end Sys2Proof.Machine
end

