-- ==== Sys2Proof/Machine/System.lean ====
section
/-! DEFINITION. RTI, RES and TRAP (spec/43_system.md R121 to R123). -/

namespace Sys2Proof.Machine

/-- RTI (R121): a no-op; it restores nothing and checks no privilege (90_conflicts.md C6). -/
def execRti (s : State) : Outcome := .next s

/-- RES (R122): raises IllegalOpcode with its word and its address; nothing else changes. -/
def execRes (word : Word) (s : State) : Outcome :=
  .next (raiseCondition (.illegalOpcode word s.instrAddr) s)

/-- TRAP (R123): R7, then the routine of the vector, with the machine's own parameters. -/
def execTrap (vect : BitVec 8) (s : State) : Outcome :=
  trapDispatch Config.params vect (trapEntry s)

end Sys2Proof.Machine
end

