-- ==== Sys2Proof/Machine/Step.lean ====
section
/-! DEFINITION. One engine cycle (spec/43_system.md R120). -/

namespace Sys2Proof.Machine

/-- One cycle. A HALTED engine makes none (10_state.md R27). The termination request is looked at once, before the
fetch (60_exceptions.md R155, R156); otherwise the word at pc is fetched, pc incremented, and the instruction executed. -/
def step (s : State) : Host.Outcome State Fault Refusal :=
  match s.run with
  | .halted _ => .fault .engineHalted
  | .running =>
    match waitPoint s with
    | .abandoned s1 => .next s1
    | .stuck f => .fault f
    | .done _ s1 =>
      match fetch s1 with
      | .abandoned s2 => .next s2
      | .stuck f => .fault f
      | .done w s2 => exec (decode w) s2

/-- The state with an instruction placed where the next fetch reads it: one word at pc, bits from `nbits` up 0. With the
engine RUNNING, no request due and pc not at KBSR (whose fetch polls) the very next step runs it (log 20). -/
def State.withFetchWord (s : State) (nbits w : Nat) : State :=
  placeAtPc (BitVec.ofNat 16 (w % 2 ^ nbits)) s

end Sys2Proof.Machine
end

