-- ==== Sys2Proof/Machine/Loader.lean ====
section
/-! DEFINITION. The effect of the image loader on the initial memory (spec/70_reset_and_hazards.md R170, R172 to R174).
The loader runs before the first cycle and is no instruction. -/

namespace Sys2Proof.Machine

/-- The whole words of a payload, big-endian; an odd byte at the end is ignored (R173, R174, D23). -/
def wordsBigEndian : List Byte → List Word
  | hi :: lo :: rest => (hi ++ lo) :: wordsBigEndian rest
  | _ => []

/-- Words written one after another from a cell on; those past the top of memory are not loaded (R173). -/
def loadWords (m : Memory) (origin : Nat) : List Word → Memory
  | [] => m
  | w :: rest =>
    if origin < 65536 then loadWords (m.poke (BitVec.ofNat 16 origin) w) (origin + 1) rest else m

/-- LoadImage (R173): the origin, then the payload. A file with no origin word is an ImageLoadFailure (R174, D23). -/
def loadImage (m : Memory) (image : List Byte) : Option Memory :=
  match image with
  | hi :: lo :: payload => some (loadWords m (hi ++ lo).toNat (wordsBigEndian payload))
  | _ => none

/-- Images loaded in order, so the later one wins where two cover a cell (R172, D22). -/
def loadImages (m : Memory) : List (List Byte) → Option Memory
  | [] => some m
  | image :: rest =>
    match loadImage m image with
    | some m' => loadImages m' rest
    | none => none

/-- The machine at its first cycle: reset, then every image loaded (R170). On a load failure the run never starts. -/
def boot (images : List (List Byte)) : Option State :=
  match loadImages State.reset.mem images with
  | some m => some { State.reset with mem := m }
  | none => none

end Sys2Proof.Machine
end

