-- ==== Sys2Proof/Safety.lean ====
section
/-! DEFINITION. What the statements mean by a run, its end, and the host's silence, in the spec's terms
(43_system.md R124, R125; 60_exceptions.md R150, R155). -/

namespace Sys2Proof.Machine

/-- The run has ended exactly when the run state is HALTED (R125). -/
def State.ended (s : State) : Bool := s.run != .running

/-- A fatal end: one of the two illegal conditions (R124 (c), R150). -/
def RunState.fatal : RunState → Bool
  | .halted (.illegalOpcode _ _) => true
  | .halted (.illegalTrapVector _ _) => true
  | .halted .haltTrap => false
  | .halted .interruptRequested => false
  | .running => false

/-- The host has made no termination request and will make none (R155). -/
abbrev State.noRequest (s : State) : Prop := s.interruptRequested = false ∧ s.requestIn = none

/-- The host has made no termination request and none is due at the next point at which it could take effect. -/
abbrev State.noRequestDue (s : State) : Prop := s.interruptRequested = false ∧ s.requestIn ≠ some 0

/-- The state in which the termination request has been taken: HALTED with its reason, nothing else of the machine
moved (R155). -/
def State.requestTaken (s : State) : State :=
  { s with run := .halted .interruptRequested, interruptRequested := true, requestIn := none }

/-- What a read of KBSR returns when the host answers its poll: 0x8000 with a key, 0 without (20_memory.md R43, R46). -/
def State.polledWord (s : State) : Word := if s.hostTurn.pollResult.1.isSome then 0x8000 else 0

/-- The state a read of KBSR leaves when the host answers its poll (R43). -/
def State.afterPoll (s : State) : State := latchKey s.hostTurn.pollResult.1 s.hostTurn.pollResult.2

/-- The vector of PUTS, or of PUTSP (44_trap_routines.md R130). -/
def stringVector (packed : Bool) : BitVec 8 := if packed then 0x24 else 0x22

/-- The routine PUTS, or PUTSP, which TRAP runs after R7 is written (R133, R135). -/
def stringRoutine (p : Params) (packed : Bool) : State → Outcome := if packed then trapPutsp p else trapPuts p

/-- What PUTS writes for a cell, its low byte (R133), or PUTSP, its low byte and then its high byte if nonzero (R135). -/
def cellBytes (packed : Bool) (w : Word) : List Byte :=
  if packed = true ∧ w.extractLsb' 8 8 ≠ 0#8 then [w.extractLsb' 0 8, w.extractLsb' 8 8] else [w.extractLsb' 0 8]

/-- What PUTS or PUTSP writes for n cells from an address on, modulo 2^16, of one memory. -/
def Memory.stringBytes (m : Memory) (packed : Bool) (a : Word) (n : Nat) : List Byte :=
  (List.range n).flatMap fun i => cellBytes packed (m.peek (a + BitVec.ofNat 16 i))

/-- The keys of the two keyboard cells' bytes, which a poll writes. -/
def isKeyboardByte (k : Nat) : Prop :=
  k = 2 * kbsr.toNat ∨ k = 2 * kbsr.toNat + 1 ∨ k = 2 * kbdr.toNat ∨ k = 2 * kbdr.toNat + 1

/-- The keys of the two bytes of a word cell. -/
def isByteOf (a : Word) (k : Nat) : Prop := k = 2 * a.toNat ∨ k = 2 * a.toNat + 1

/-- Whether a load or an indirect store, after its fetch, reads KBSR (20_memory.md R44). -/
def readsKbsr (i : Instr) (s : State) : Prop :=
  match i with
  | .ld _ off | .sti _ off => pcRelative off s = kbsr
  | .ldr _ base off => basePlusOffset base off s = kbsr
  | .ldi _ off => pcRelative off s = kbsr ∨ s.mem.peek (pcRelative off s) = kbsr
  | .br _ _ _ _ | .addReg _ _ _ | .addImm _ _ _ | .st _ _ | .jsr _ | .jsrr _ | .andReg _ _ _ => False
  | .andImm _ _ _ | .str _ _ _ | .rti | .not _ _ | .jmp _ | .res _ | .lea _ _ | .trap _ => False

/-- The host's fields are those of before. -/
abbrev State.sameHost (s t : State) : Prop :=
  t.input = s.input ∧ t.output = s.output ∧ t.interruptRequested = s.interruptRequested ∧
    t.pollAnswers = s.pollAnswers ∧ t.draws = s.draws ∧ t.requestIn = s.requestIn

/-- An outcome with COND left out of account, in the next state and in the state a blocked cycle stands in. -/
def eraseCond : Outcome → Outcome
  | .next t => .next (t.setCond .zero)
  | .fault (.consoleReadBlocked t) => .fault (.consoleReadBlocked (t.setCond .zero))
  | .fault .engineHalted => .fault .engineHalted
  | .fault .stringWalkNeverEnds => .fault .stringWalkNeverEnds
  | .refused r => .refused r

end Sys2Proof.Machine
end

