-- ==== Sys2Proof/Certificates/Slice0/Obligations.lean ====
section
/-! DEFINITION. The statements for the provers. Each docstring names the rules of spec/ it comes from. -/

open Sys2Proof Sys2Proof.Machine

/-! ## Encoding -/

/-- Words written out in the spec decode to the instructions the spec says they are
(30_encoding.md R61, R66, R70; 95_test_vectors.md). -/
def Obligations.DecodesSpecWords : Prop :=
  decode 0x1225 = .addImm .r1 .r0 5 ∧ decode 0x1401 = .addReg .r2 .r0 .r1 ∧
  decode 0x0401 = .br false true false 1 ∧ decode 0x923F = .not .r1 .r0 ∧
  decode 0xE010 = .lea .r0 0x010 ∧ decode 0x62BF = .ldr .r1 .r2 0x3F ∧
  decode 0xB201 = .sti .r1 1 ∧ decode 0x4805 = .jsr 5 ∧ decode 0x41C0 = .jsrr .r7 ∧
  decode 0xC1C0 = .jmp .r7 ∧ decode 0xDFFF = .res 0xDFFF ∧ decode 0xFF25 = .trap 0x25

/-- Every well-formed instruction is read back from its canonical word, with every operand at every value
(R63, R66, R70). -/
def Obligations.DecodeEncodeRoundTrip : Prop :=
  ∀ i : Instr, i.wellFormed = true → decode (encode i) = i

/-- Every word decodes to a well-formed instruction whose canonical word agrees with it on every bit that is not
ignored: the decoder is total and drops no other bit (R65, R66). RES is given no ignored bits (log 6). -/
def Obligations.EncodeKeepsDecodedBits : Prop :=
  ∀ w : Word, (decode w).wellFormed = true ∧
    encode (decode w) &&& ~~~(decode w).ignoredBits = w &&& ~~~(decode w).ignoredBits

/-- Words that differ only in ignored bits decode to the same instruction, and so execute identically (R65).
RES is given no ignored bits, since its whole word is recorded (R122; log 6). -/
def Obligations.IgnoredBitsDecodeAlike : Prop :=
  ∀ w v : Word, w &&& ~~~(decode w).ignoredBits = v &&& ~~~(decode w).ignoredBits → decode v = decode w

/-- Every 16-bit word falls under exactly one row of the opcode table, the row of the instruction it decodes to
(INDEX.md; R61, R65). -/
def Obligations.EachWordHasOneRow : Prop :=
  ∀ w : Word, opcodeTable.filter (fun r => r.holds w) = [(decode w).row]

/-- Sign and zero extension, bit by bit (00_scope.md R13). -/
def Obligations.SignExtensionBits : Prop :=
  (∀ (v : BitVec 5) (i : Fin 16), (sext v).getLsbD i = if i.val < 5 then v.getLsbD i else v.getLsbD 4) ∧
  (∀ (v : BitVec 6) (i : Fin 16), (sext v).getLsbD i = if i.val < 6 then v.getLsbD i else v.getLsbD 5) ∧
  (∀ (v : BitVec 9) (i : Fin 16), (sext v).getLsbD i = if i.val < 9 then v.getLsbD i else v.getLsbD 8) ∧
  (∀ (v : BitVec 11) (i : Fin 16), (sext v).getLsbD i = if i.val < 11 then v.getLsbD i else v.getLsbD 10) ∧
  (∀ (k : Nat) (v : BitVec k) (i : Fin 16),
    (v.zeroExtend 16 : Word).getLsbD i = if i.val < k then v.getLsbD i else false)

/-! ## Registers, flags, memory, reset -/

/-- A register write is read back, leaves every other register, and no register is hardwired (10_state.md R20). -/
def Obligations.RegisterWriteThenRead : Prop :=
  ∀ (s : State) (r q : Reg) (v : Word), (s.setReg r v).reg q = if q = r then v else s.reg q

/-- The condition a result gives, on the word and on its signed reading, and its one-hot word
(R23, R24; 40_operate.md R85). -/
def Obligations.ConditionOfValue : Prop :=
  ∀ v : Word,
    (condOf v = .zero ↔ v = 0) ∧ (condOf v = .neg ↔ v.getLsbD 15 = true) ∧
    (condOf v = .pos ↔ v ≠ 0 ∧ v.getLsbD 15 = false) ∧
    (condOf v = .neg ↔ v.toInt < 0) ∧ (condOf v = .pos ↔ 0 < v.toInt) ∧
    (condOf v).toWord = if v = 0 then 0b010 else if v.getLsbD 15 then 0b100 else 0b001

/-- A read through the Memory Unit of any cell but KBSR gives the word last written there, and a write changes no
other cell; a write is plain storage at every address (20_memory.md R41, R42, R53). -/
def Obligations.MemoryReadAfterWrite : Prop :=
  ∀ (s : State) (a b v : Word),
    (s.memWrite a v).mem.peek b = (if b = a then v else s.mem.peek b) ∧
    (b ≠ kbsr → memRead b (s.memWrite a v) = .done (if b = a then v else s.mem.peek b) (s.memWrite a v)) ∧
    s.memWrite a v = { s with mem := s.mem.poke a v }

/-- A read of KBSR that the host answers returns 0x8000 or 0, which KBSR then holds; a key is taken from the input and
latched into KBDR, without one KBDR stands; no other cell changes (R41, R43, R45, R46, decisions D7, D8). Which of the two it
is follows the host's answer (R30): a key when the next answer is pending and a character is left, none when the answer is not
pending or no character is left (log 9); past the listed answers it is the free Config.keyPending. -/
def Obligations.KeyboardStatusRead : Prop :=
  ∀ s : State, s.noRequestDue →
    memRead kbsr s = .done s.polledWord s.afterPoll ∧
    s.afterPoll.mem.peek kbsr = s.polledWord ∧
    (∀ a, a ≠ kbsr → a ≠ kbdr → s.afterPoll.mem.peek a = s.mem.peek a) ∧
    ((s.polledWord = 0 ∧ s.afterPoll.mem.peek kbdr = s.mem.peek kbdr ∧ s.afterPoll.input = s.input) ∨
      (s.polledWord = 0x8000 ∧ ∃ c : Byte, s.input = c :: s.afterPoll.input ∧
        s.afterPoll.mem.peek kbdr = c.zeroExtend 16)) ∧
    (∀ (more : List Bool) (c : Byte) (rest : List Byte), s.pollAnswers = true :: more → s.input = c :: rest →
      s.polledWord = 0x8000 ∧ s.afterPoll.mem.peek kbdr = c.zeroExtend 16 ∧ s.afterPoll.input = rest ∧
      s.afterPoll.pollAnswers = more) ∧
    (∀ more : List Bool, s.pollAnswers = false :: more → s.polledWord = 0 ∧ s.afterPoll.pollAnswers = more) ∧
    (s.input = [] → s.polledWord = 0) ∧
    (s.pollAnswers = [] → s.input ≠ [] → s.polledWord = if Config.keyPending s.draws then 0x8000 else 0)

/-- The machine after reset (R32, R170, R171): RUNNING at 0x3000 with COND = ZERO and memory all zero. R0 to R7 at zero
is the spec's decision D6 (log 3), empty output D19, no request D17. -/
def Obligations.ResetState : Prop :=
  State.reset.run = .running ∧ State.reset.pc = 0x3000 ∧ State.reset.cond = .zero ∧
  State.reset.cond.toWord = 0b010 ∧ (∀ r : Reg, State.reset.reg r = 0) ∧
  (∀ a : Word, State.reset.mem.peek a = 0) ∧ State.reset.output = [] ∧
  State.reset.interruptRequested = false

/-- The memory of the reset state is in canonical form. -/
def Obligations.ResetMemoryCanonical : Prop := State.reset.mem.wf

/-! ## The cycle -/

/-- A step runs the decoded instruction: with the engine RUNNING, no request due and pc not at KBSR, the cycle is exec of
the instruction at pc, on the state with pc one further (43_system.md R120). hostTurn brings a scheduled request one point
nearer, and is the identity when none is to come (log 10). -/
def Obligations.StepRunsDecodedInstr : Prop :=
  (∀ (s : State) (i : Instr), s.run = .running → s.noRequestDue → s.pc ≠ kbsr →
    decode (s.mem.peek s.pc) = i → i.wellFormed = true →
    step s = exec i { s.hostTurn with pc := s.pc + 1 }) ∧
  (∀ s : State, s.requestIn = none → s.hostTurn = s)

/-- A fetch from KBSR polls, and the word it reads, 0x8000 or 0, does nothing: pc goes to 0xFE01. A request that arrives
in that poll abandons the cycle with pc where it was (R120, R121, 60_exceptions.md R155). -/
def Obligations.FetchAtKeyboardStatus : Prop :=
  ∀ s : State, s.run = .running → s.pc = kbsr → s.noRequestDue →
    (s.hostTurn.noRequestDue → step s = .next { s.hostTurn.afterPoll with pc := 0xFE01 }) ∧
    (¬s.hostTurn.noRequestDue → step s = .next s.requestTaken)

/-- A termination request made or due is taken before the fetch: the engine halts, and nothing else of the machine moves
(60_exceptions.md R155, R156 (b), decision D17). -/
def Obligations.RequestTakenBeforeFetch : Prop :=
  ∀ s : State, s.run = .running → ¬s.noRequestDue → step s = .next s.requestTaken

/-- HALTED is terminal: no step leaves it (10_state.md R27). The name of the fault is the model's (log 11). -/
def Obligations.HaltedMakesNoStep : Prop :=
  ∀ (s : State) (why : HaltReason), s.run = .halted why → step s = .fault .engineHalted

/-! ## Operate instructions -/

/-- ADD, register form (40_operate.md R80): the sum modulo 2^16 of the old sources, flags from it. -/
def Obligations.AddRegister : Prop :=
  ∀ (dr sr1 sr2 : Reg) (ignored : BitVec 2) (s : State),
    decode (0x1#4 ++ (dr.toField ++ (sr1.toField ++ (0#1 ++ (ignored ++ sr2.toField))))) = .addReg dr sr1 sr2 ∧
    exec (.addReg dr sr1 sr2) s = .next { s with
      regs := s.regs.set dr (s.reg sr1 + s.reg sr2), cond := condOf (s.reg sr1 + s.reg sr2) }

/-- ADD, immediate form (R81). -/
def Obligations.AddImmediate : Prop :=
  ∀ (dr sr1 : Reg) (imm : BitVec 5) (s : State),
    decode (0x1#4 ++ (dr.toField ++ (sr1.toField ++ (1#1 ++ imm)))) = .addImm dr sr1 imm ∧
    exec (.addImm dr sr1 imm) s = .next { s with
      regs := s.regs.set dr (s.reg sr1 + sext imm), cond := condOf (s.reg sr1 + sext imm) }

/-- AND, register form (R82). -/
def Obligations.AndRegister : Prop :=
  ∀ (dr sr1 sr2 : Reg) (ignored : BitVec 2) (s : State),
    decode (0x5#4 ++ (dr.toField ++ (sr1.toField ++ (0#1 ++ (ignored ++ sr2.toField))))) = .andReg dr sr1 sr2 ∧
    exec (.andReg dr sr1 sr2) s = .next { s with
      regs := s.regs.set dr (s.reg sr1 &&& s.reg sr2), cond := condOf (s.reg sr1 &&& s.reg sr2) }

/-- AND, immediate form (R83). -/
def Obligations.AndImmediate : Prop :=
  ∀ (dr sr1 : Reg) (imm : BitVec 5) (s : State),
    decode (0x5#4 ++ (dr.toField ++ (sr1.toField ++ (1#1 ++ imm)))) = .andImm dr sr1 imm ∧
    exec (.andImm dr sr1 imm) s = .next { s with
      regs := s.regs.set dr (s.reg sr1 &&& sext imm), cond := condOf (s.reg sr1 &&& sext imm) }

/-- NOT (R84), its six low bits ignored. -/
def Obligations.NotComplement : Prop :=
  ∀ (dr sr : Reg) (ignored : BitVec 6) (s : State),
    decode (0x9#4 ++ (dr.toField ++ (sr.toField ++ ignored))) = .not dr sr ∧
    exec (.not dr sr) s = .next { s with
      regs := s.regs.set dr (~~~(s.reg sr)), cond := condOf (~~~(s.reg sr)) }

/-! ## Loads, stores, LEA -/

/-- LD (41_load_store.md R90): the word at pc + sext_9; from KBSR the polled word. -/
def Obligations.LoadPcRelative : Prop :=
  ∀ (dr : Reg) (off : BitVec 9) (s : State),
    decode (0x2#4 ++ (dr.toField ++ off)) = .ld dr off ∧
    (s.pc + sext off ≠ kbsr → exec (.ld dr off) s = .next { s with
      regs := s.regs.set dr (s.mem.peek (s.pc + sext off)), cond := condOf (s.mem.peek (s.pc + sext off)) }) ∧
    (s.pc + sext off = kbsr → s.noRequestDue → exec (.ld dr off) s = .next { s.afterPoll with
      regs := s.regs.set dr s.polledWord, cond := condOf s.polledWord })

/-- ST (R91). -/
def Obligations.StorePcRelative : Prop :=
  ∀ (sr : Reg) (off : BitVec 9) (s : State),
    decode (0x3#4 ++ (sr.toField ++ off)) = .st sr off ∧
    exec (.st sr off) s = .next { s with mem := s.mem.poke (s.pc + sext off) (s.reg sr) }

/-- LDR (R92): the word at x[BaseR] + sext_6, the base read before DR is written. -/
def Obligations.LoadBaseOffset : Prop :=
  ∀ (dr base : Reg) (off : BitVec 6) (s : State),
    decode (0x6#4 ++ (dr.toField ++ (base.toField ++ off))) = .ldr dr base off ∧
    (s.reg base + sext off ≠ kbsr → exec (.ldr dr base off) s = .next { s with
      regs := s.regs.set dr (s.mem.peek (s.reg base + sext off)),
      cond := condOf (s.mem.peek (s.reg base + sext off)) }) ∧
    (s.reg base + sext off = kbsr → s.noRequestDue → exec (.ldr dr base off) s = .next { s.afterPoll with
      regs := s.regs.set dr s.polledWord, cond := condOf s.polledWord })

/-- STR (R93). -/
def Obligations.StoreBaseOffset : Prop :=
  ∀ (sr base : Reg) (off : BitVec 6) (s : State),
    decode (0x7#4 ++ (sr.toField ++ (base.toField ++ off))) = .str sr base off ∧
    exec (.str sr base off) s = .next { s with mem := s.mem.poke (s.reg base + sext off) (s.reg sr) }

/-- LDI (R94): double indirection, pointer cell first; either read may be the one that polls. -/
def Obligations.LoadIndirect : Prop :=
  ∀ (dr : Reg) (off : BitVec 9) (s : State),
    decode (0xA#4 ++ (dr.toField ++ off)) = .ldi dr off ∧
    (s.pc + sext off ≠ kbsr → s.mem.peek (s.pc + sext off) ≠ kbsr → exec (.ldi dr off) s = .next { s with
      regs := s.regs.set dr (s.mem.peek (s.mem.peek (s.pc + sext off))),
      cond := condOf (s.mem.peek (s.mem.peek (s.pc + sext off))) }) ∧
    (s.pc + sext off ≠ kbsr → s.mem.peek (s.pc + sext off) = kbsr → s.noRequestDue →
      exec (.ldi dr off) s = .next { s.afterPoll with
        regs := s.regs.set dr s.polledWord, cond := condOf s.polledWord }) ∧
    (s.pc + sext off = kbsr → s.noRequestDue → exec (.ldi dr off) s = .next { s.afterPoll with
      regs := s.regs.set dr (s.afterPoll.mem.peek s.polledWord),
      cond := condOf (s.afterPoll.mem.peek s.polledWord) })

/-- STI (R95): the store goes where the pointer cell points; a pointer read at KBSR polls. -/
def Obligations.StoreIndirect : Prop :=
  ∀ (sr : Reg) (off : BitVec 9) (s : State),
    decode (0xB#4 ++ (sr.toField ++ off)) = .sti sr off ∧
    (s.pc + sext off ≠ kbsr → exec (.sti sr off) s = .next { s with
      mem := s.mem.poke (s.mem.peek (s.pc + sext off)) (s.reg sr) }) ∧
    (s.pc + sext off = kbsr → s.noRequestDue → exec (.sti sr off) s = .next { s.afterPoll with
      mem := s.afterPoll.mem.poke s.polledWord (s.reg sr) })

/-- LEA (R96): the address itself, with the flags from it and no memory read. -/
def Obligations.LoadEffectiveAddress : Prop :=
  ∀ (dr : Reg) (off : BitVec 9) (s : State),
    decode (0xE#4 ++ (dr.toField ++ off)) = .lea dr off ∧
    exec (.lea dr off) s = .next { s with
      regs := s.regs.set dr (s.pc + sext off), cond := condOf (s.pc + sext off) }

/-! ## Control transfer -/

/-- BR (42_control.md R110, decisions D3, D4): taken exactly when the bit of COND's state is set in nzp. -/
def Obligations.BranchOnCondition : Prop :=
  ∀ (n z p : Bool) (off : BitVec 9) (s : State),
    decode (0x0#4 ++ (BitVec.ofBool n ++ (BitVec.ofBool z ++ (BitVec.ofBool p ++ off)))) = .br n z p off ∧
    exec (.br n z p off) s = .next (
      if (n = true ∧ s.cond = .neg) ∨ (z = true ∧ s.cond = .zero) ∨ (p = true ∧ s.cond = .pos)
      then { s with pc := s.pc + sext off } else s)

/-- JSR (R111). -/
def Obligations.JumpSubroutine : Prop :=
  ∀ (off : BitVec 11) (s : State),
    decode (0x4#4 ++ (1#1 ++ off)) = .jsr off ∧
    exec (.jsr off) s = .next { s with regs := s.regs.set .r7 s.pc, pc := s.pc + sext off }

/-- JSRR (R112): R7 is written before the base is read, so JSRR R7 goes to the next instruction
(the spec's decision D14, log 16). -/
def Obligations.JumpSubroutineRegister : Prop :=
  ∀ (base : Reg) (ignored1 : BitVec 2) (ignored2 : BitVec 6) (s : State),
    decode (0x4#4 ++ (0#1 ++ (ignored1 ++ (base.toField ++ ignored2)))) = .jsrr base ∧
    exec (.jsrr base) s = .next { s with
      regs := s.regs.set .r7 s.pc, pc := if base = .r7 then s.pc else s.reg base }

/-- JMP, RET among it (R113). -/
def Obligations.JumpRegister : Prop :=
  ∀ (base : Reg) (ignored1 : BitVec 3) (ignored2 : BitVec 6) (s : State),
    decode (0xC#4 ++ (ignored1 ++ (base.toField ++ ignored2))) = .jmp base ∧
    exec (.jmp base) s = .next { s with pc := s.reg base }

/-! ## RTI, RES, TRAP -/

/-- RTI (43_system.md R121) does nothing, whatever its low twelve bits. -/
def Obligations.RtiDoesNothing : Prop :=
  ∀ (ignored : BitVec 12) (s : State), decode (0x8#4 ++ ignored) = .rti ∧ exec .rti s = .next s

/-- RES (R122) halts with IllegalOpcode, its word and the address it was fetched from, one below pc; all else stands. -/
def Obligations.ReservedOpcodeHalts : Prop :=
  ∀ (low : BitVec 12) (s : State),
    decode (0xD#4 ++ low) = .res (0xD#4 ++ low) ∧
    exec (.res (0xD#4 ++ low)) s = .next { s with run := .halted (.illegalOpcode (0xD#4 ++ low) (s.pc - 1)) }

/-- TRAP (R123, R157; 44_trap_routines.md R130): R7 gets the return address, then the routine of the vector runs. -/
def Obligations.TrapEntersRoutine : Prop :=
  ∀ (v : BitVec 8) (ignored : BitVec 4) (s : State),
    decode (0xF#4 ++ (ignored ++ v)) = .trap v ∧
    exec (.trap v) s =
      (let s' : State := { s with regs := s.regs.set .r7 s.pc }
       if v = 0x20 then trapGetc Config.params s' else if v = 0x21 then trapOut s'
       else if v = 0x22 then trapPuts Config.params s' else if v = 0x23 then trapIn Config.params s'
       else if v = 0x24 then trapPutsp Config.params s' else if v = 0x25 then trapHalt Config.params s'
       else trapUnknown v s')

/-- OUT (R132): the low byte of R0 is appended to the output. -/
def Obligations.OutWritesLowByte : Prop :=
  decode 0xF021 = .trap 0x21 ∧ ∀ s : State, exec (.trap 0x21) s = .next { s with
    regs := s.regs.set .r7 s.pc, output := s.output ++ [(s.reg .r0).extractLsb' 0 8] }

/-- HALT (R136): the notice, an open parameter, then HALTED with HaltTrap. -/
def Obligations.HaltEndsRun : Prop :=
  decode 0xF025 = .trap 0x25 ∧ ∀ s : State, exec (.trap 0x25) s = .next { s with
    regs := s.regs.set .r7 s.pc, output := s.output ++ Config.params.haltNotice, run := .halted .haltTrap }

/-- An unknown vector (R137) halts with IllegalTrapVector after R7 is written (the spec's decision D15,
log 17). -/
def Obligations.UnknownVectorHalts : Prop :=
  ∀ (v : BitVec 8) (s : State), v.toNat < 0x20 ∨ 0x25 < v.toNat →
    exec (.trap v) s = .next { s with
      regs := s.regs.set .r7 s.pc, run := .halted (.illegalTrapVector v (s.pc - 1)) }

/-- GETC and IN with a character to read (R131, R134, decisions D10, D20): it is taken from the input into R0,
zero-extended, with COND from it; IN writes the prompt before and the echo after. -/
def Obligations.ConsoleReadsCharacter : Prop :=
  ∀ (s : State) (c : Byte) (rest : List Byte), s.noRequestDue → s.input = c :: rest →
    exec (.trap 0x20) s = .next { s.hostTurn with
      regs := (s.regs.set .r7 s.pc).set .r0 (c.zeroExtend 16), cond := if c = 0 then .zero else .pos,
      input := rest } ∧
    exec (.trap 0x23) s = .next { s.hostTurn with
      regs := (s.regs.set .r7 s.pc).set .r0 (c.zeroExtend 16), cond := if c = 0 then .zero else .pos,
      input := rest, output := s.output ++ Config.params.inPrompt ++ [c] }

/-- GETC and IN on an exhausted input (10_state.md R30, 43_system.md R124 (e), decision D11): console_eof's word is the
result; without one the cycle is blocked, for ever unless a termination request is still to come, which abandons it. Where it
blocks for ever R7 is written and IN's prompt is put (44_trap_routines.md R134); the fault's name is the model's (log 12). -/
def Obligations.ConsoleReadExhausted : Prop :=
  ∀ s : State, s.noRequestDue → s.input = [] →
    (exec (.trap 0x20) s = match Config.params.consoleEof with
      | some w => .next { s.hostTurn with regs := (s.regs.set .r7 s.pc).set .r0 w, cond := condOf w }
      | none => if s.requestIn = none then .fault (.consoleReadBlocked { s with regs := s.regs.set .r7 s.pc })
                else .next { s.requestTaken with regs := s.regs.set .r7 s.pc }) ∧
    (exec (.trap 0x23) s = match Config.params.consoleEof with
      | some w => .next { s.hostTurn with
          regs := (s.regs.set .r7 s.pc).set .r0 w, cond := condOf w,
          output := s.output ++ Config.params.inPrompt ++ [w.extractLsb' 0 8] }
      | none => if s.requestIn = none then .fault (.consoleReadBlocked { s with
                  regs := s.regs.set .r7 s.pc, output := s.output ++ Config.params.inPrompt })
                else .next { s.requestTaken with
                  regs := s.regs.set .r7 s.pc, output := s.output ++ Config.params.inPrompt })

/-- PUTS and PUTSP on a string of n words that ends in a zero word, the address wrapping modulo 2^16
(R133, R135, decision D13), with no request to come; the walk passes KBSR only in plain mode (D12). -/
def Obligations.StringRoutinesWriteString : Prop :=
  ∀ (s : State) (n : Nat), n < 65536 → s.noRequest →
    (Config.params.stringReadMode = .plain ∨ ∀ i, i ≤ n → s.reg .r0 + BitVec.ofNat 16 i ≠ kbsr) →
    (∀ i, i < n → s.mem.peek (s.reg .r0 + BitVec.ofNat 16 i) ≠ 0) →
    s.mem.peek (s.reg .r0 + BitVec.ofNat 16 n) = 0 →
    exec (.trap 0x22) s = .next { s with
      regs := s.regs.set .r7 s.pc,
      output := s.output ++ (List.range n).map fun i =>
        (s.mem.peek (s.reg .r0 + BitVec.ofNat 16 i)).extractLsb' 0 8 } ∧
    exec (.trap 0x24) s = .next { s with
      regs := s.regs.set .r7 s.pc,
      output := s.output ++ (List.range n).flatMap fun i =>
        let w := s.mem.peek (s.reg .r0 + BitVec.ofNat 16 i)
        if w.extractLsb' 8 8 = 0#8 then [w.extractLsb' 0 8] else [w.extractLsb' 0 8, w.extractLsb' 8 8] }

/-- A walk in polling mode that reaches KBSR after n character cells polls there (R133, R135; 20_memory.md R44, decision D12).
With no key it reads 0 and stops. With one it reads 0x8000, writes that cell's bytes and goes on to the zero word after m
more cells of the memory the poll left. A request in the poll leaves the n cells' bytes put and KBSR as it was; one after the
poll has answered and before its cell's first put leaves them put and the key latched (60_exceptions.md R155, decision D17;
the points a schedule counts are the model's, log 10). -/
def Obligations.PollingWalkAtKbsr : Prop :=
  ∀ (p : Params) (packed : Bool) (s : State) (n : Nat), p.stringReadMode = .polling → s.noRequest → n < 65536 →
    (∀ i, i < n → s.mem.peek (s.reg .r0 + BitVec.ofNat 16 i) ≠ 0 ∧ s.reg .r0 + BitVec.ofNat 16 i ≠ kbsr) →
    s.reg .r0 + BitVec.ofNat 16 n = kbsr →
    let bytes := s.mem.stringBytes packed (s.reg .r0) n
    (s.polledWord = 0 →
      stringRoutine p packed s = .next { s.afterPoll with output := s.output ++ bytes }) ∧
    (∀ m, s.polledWord = 0x8000 → m < 65535 →
      (∀ i, i < m → s.afterPoll.mem.peek (kbsr + 1 + BitVec.ofNat 16 i) ≠ 0) →
      s.afterPoll.mem.peek (kbsr + 1 + BitVec.ofNat 16 m) = 0 →
      stringRoutine p packed s = .next { s.afterPoll with
        output := s.output ++ bytes ++ cellBytes packed 0x8000 ++ s.afterPoll.mem.stringBytes packed (kbsr + 1) m }) ∧
    stringRoutine p packed { s with requestIn := some (n + bytes.length + 1) } =
      .next { s.requestTaken with output := s.output ++ bytes } ∧
    (s.polledWord = 0x8000 →
      stringRoutine p packed { s with requestIn := some (n + bytes.length + 2) } =
        .next { s.afterPoll.requestTaken with output := s.output ++ bytes })

/-- In plain mode, with no zero word in memory and no request to come, PUTS and PUTSP never return (R133, R135, D13). -/
def Obligations.StringWithoutZeroNeverEnds : Prop :=
  ∀ (p : Params) (s : State), p.stringReadMode = .plain → s.noRequest → (∀ a, s.mem.peek a ≠ 0) →
    trapPuts p s = .fault .stringWalkNeverEnds ∧ trapPutsp p s = .fault .stringWalkNeverEnds

/-- The bound of the model's walk is no limit of the machine's: a walk that the model calls never-ending goes on past every
count of cells, in either mode (R133, R135, D13; log 13). -/
def Obligations.WalkVerdictIsSound : Prop :=
  ∀ (mode : StringReadMode) (emit : Word → List Byte) (a : Word) (s : State) (f : Fault),
    stringWalk mode emit (walkBound s) a s = .stuck f →
    ∀ n, stringWalk mode emit n a s = .stuck .stringWalkNeverEnds

/-- A request made or due abandons a cycle that waits: in the poll of a read of KBSR, in a console read, in a string walk
before its first cell (RequestAbandonsStringWalk has the walks under way). What was done before stays (60_exceptions.md R155,
decision D17). -/
def Obligations.RequestAbandonsWaits : Prop :=
  ∀ s : State, ¬s.noRequestDue →
    (∀ dr off, pcRelative off s = kbsr → exec (.ld dr off) s = .next s.requestTaken) ∧
    (∀ dr base off, basePlusOffset base off s = kbsr → exec (.ldr dr base off) s = .next s.requestTaken) ∧
    (∀ dr off, pcRelative off s = kbsr ∨ s.mem.peek (pcRelative off s) = kbsr →
      exec (.ldi dr off) s = .next s.requestTaken) ∧
    (∀ sr off, pcRelative off s = kbsr → exec (.sti sr off) s = .next s.requestTaken) ∧
    exec (.trap 0x20) s = .next { s.requestTaken with regs := s.regs.set .r7 s.pc } ∧
    exec (.trap 0x22) s = .next { s.requestTaken with regs := s.regs.set .r7 s.pc } ∧
    exec (.trap 0x24) s = .next { s.requestTaken with regs := s.regs.set .r7 s.pc } ∧
    exec (.trap 0x23) s = .next { s.requestTaken with
      regs := s.regs.set .r7 s.pc, output := s.output ++ Config.params.inPrompt }

/-! ## Frames -/

/-- ADD, AND, NOT and LEA leave every register but DR, pc, every byte of memory, the run state and the host's fields
(10_state.md R21). -/
def Obligations.OperateFrame : Prop :=
  ∀ (i : Instr) (dr sr1 sr2 : Reg) (imm : BitVec 5) (off : BitVec 9) (s t : State),
    i ∈ [Instr.addReg dr sr1 sr2, .addImm dr sr1 imm, .andReg dr sr1 sr2, .andImm dr sr1 imm, .not dr sr1, .lea dr off] →
    exec i s = .next t →
    (∀ r, r ≠ dr → t.reg r = s.reg r) ∧ t.pc = s.pc ∧ (∀ k, t.mem.readByte k = s.mem.readByte k) ∧
    t.run = s.run ∧ s.sameHost t

/-- LD, LDR and LDI leave every register but DR, pc, the output, and every byte of memory but those of KBSR and KBDR; a load
that reads KBSR nowhere leaves all of memory, the run state and the host's fields (R21, 20_memory.md R43, R44). -/
def Obligations.LoadFrame : Prop :=
  ∀ (i : Instr) (dr base : Reg) (off9 : BitVec 9) (off6 : BitVec 6) (s t : State),
    i ∈ [Instr.ld dr off9, .ldr dr base off6, .ldi dr off9] → exec i s = .next t →
    (∀ r, r ≠ dr → t.reg r = s.reg r) ∧ t.pc = s.pc ∧ t.output = s.output ∧ t.input <:+ s.input ∧
    (∀ k, ¬isKeyboardByte k → t.mem.readByte k = s.mem.readByte k) ∧
    (t.run = s.run ∨ t.run = .halted .interruptRequested) ∧
    (¬readsKbsr i s → (∀ k, t.mem.readByte k = s.mem.readByte k) ∧ t.run = s.run ∧ s.sameHost t)

/-- ST, STR and STI leave every register, pc, COND, the output, and every byte of memory but those of the word at the address
stored to (for STI the address its pointer read gives, on the state that read leaves), and, when STI's pointer is read at
KBSR, those of KBSR and KBDR. ST and STR, and STI elsewhere, leave the run state and the host's fields (R21). -/
def Obligations.StoreFrame : Prop :=
  (∀ (sr : Reg) (off : BitVec 9) (s t : State), exec (.st sr off) s = .next t →
    t.regs = s.regs ∧ t.pc = s.pc ∧ t.cond = s.cond ∧ t.run = s.run ∧ s.sameHost t ∧
    (∀ k, ¬isByteOf (pcRelative off s) k → t.mem.readByte k = s.mem.readByte k)) ∧
  (∀ (sr base : Reg) (off : BitVec 6) (s t : State), exec (.str sr base off) s = .next t →
    t.regs = s.regs ∧ t.pc = s.pc ∧ t.cond = s.cond ∧ t.run = s.run ∧ s.sameHost t ∧
    (∀ k, ¬isByteOf (basePlusOffset base off s) k → t.mem.readByte k = s.mem.readByte k)) ∧
  (∀ (sr : Reg) (off : BitVec 9) (s t : State), exec (.sti sr off) s = .next t →
    t.regs = s.regs ∧ t.pc = s.pc ∧ t.cond = s.cond ∧ t.output = s.output ∧ t.input <:+ s.input ∧
    (∀ ea s', indirect off s = .done ea s' →
      (∀ k, ¬isByteOf ea k → t.mem.readByte k = s'.mem.readByte k) ∧
      (∀ k, ¬isByteOf ea k → ¬isKeyboardByte k → t.mem.readByte k = s.mem.readByte k)) ∧
    (∀ s', indirect off s = .abandoned s' → ∀ k, t.mem.readByte k = s.mem.readByte k) ∧
    (¬readsKbsr (.sti sr off) s →
      (∀ k, ¬isByteOf (s.mem.peek (pcRelative off s)) k → t.mem.readByte k = s.mem.readByte k) ∧
      t.run = s.run ∧ s.sameHost t))

/-- BR, JSR, JSRR, JMP and RTI leave every register (JSR and JSRR all but R7), COND, every byte of memory, the run state and
the host's fields (R21). -/
def Obligations.ControlFrame : Prop :=
  ∀ (i : Instr) (n z p : Bool) (off9 : BitVec 9) (off11 : BitVec 11) (base : Reg) (s t : State),
    i ∈ [Instr.br n z p off9, .jsr off11, .jsrr base, .jmp base, .rti] → exec i s = .next t →
    (∀ r, r ≠ .r7 → t.reg r = s.reg r) ∧ (i ≠ .jsr off11 → i ≠ .jsrr base → t.reg .r7 = s.reg .r7) ∧
    t.cond = s.cond ∧ (∀ k, t.mem.readByte k = s.mem.readByte k) ∧ t.run = s.run ∧ s.sameHost t

/-- RES leaves everything but the run state. TRAP leaves every register but R7 (and R0 in GETC and IN), pc, COND outside GETC
and IN, and every byte of memory but, in PUTS and PUTSP, those of KBSR and KBDR, and these too in plain mode. The routines GETC, OUT,
PUTS, IN and PUTSP leave the run state unless the request abandons them. The output is only added to, and not by GETC and
unknown vectors; the input is only taken from, by GETC, IN, PUTS and PUTSP (R21, 43_system.md R122, R123). -/
def Obligations.SystemFrame : Prop :=
  (∀ (w : Word) (s t : State), exec (.res w) s = .next t →
    t.regs = s.regs ∧ t.pc = s.pc ∧ t.cond = s.cond ∧ (∀ k, t.mem.readByte k = s.mem.readByte k) ∧ s.sameHost t) ∧
  (∀ (v : BitVec 8) (s t : State), exec (.trap v) s = .next t →
    (∀ r, r ≠ .r7 → (r = .r0 → v ≠ 0x20 ∧ v ≠ 0x23) → t.reg r = s.reg r) ∧ t.reg .r7 = s.pc ∧ t.pc = s.pc ∧
    (v ≠ 0x20 → v ≠ 0x23 → t.cond = s.cond) ∧
    (∀ k, ¬isKeyboardByte k → t.mem.readByte k = s.mem.readByte k) ∧
    ((v ≠ 0x22 ∧ v ≠ 0x24) ∨ Config.params.stringReadMode = .plain →
      ∀ k, t.mem.readByte k = s.mem.readByte k) ∧
    (0x20 ≤ v.toNat ∧ v.toNat ≤ 0x24 → t.run = s.run ∨ t.run = .halted .interruptRequested) ∧
    s.output <+: t.output ∧ (v = 0x20 ∨ v.toNat < 0x20 ∨ 0x25 < v.toNat → t.output = s.output) ∧
    t.input <:+ s.input ∧ (v ∉ [0x20, 0x22, 0x23, 0x24] → t.input = s.input))

/-! ## Whole-machine rules -/

/-- The flag writers (10_state.md R25): ADD, AND, NOT, LD, LDI, LDR, LEA, and GETC and IN on R0, leave COND as the register
they define says; every other instruction and routine leaves COND, and so does an instruction that the termination request
abandons, which is the spec's decision D17 (log 10). -/
def Obligations.FlagWriters : Prop :=
  ∀ (i : Instr) (s t : State), s.run = .running → exec i s = .next t →
    (t.run = .halted .interruptRequested → t.cond = s.cond) ∧
    (t.run ≠ .halted .interruptRequested → t.cond = match i with
      | .addReg dr _ _ | .addImm dr _ _ | .andReg dr _ _ | .andImm dr _ _ | .not dr _ => condOf (t.reg dr)
      | .ld dr _ | .ldi dr _ | .ldr dr _ _ | .lea dr _ => condOf (t.reg dr)
      | .trap v => if v = 0x20 ∨ v = 0x23 then condOf (t.reg .r0) else s.cond
      | .br _ _ _ _ | .st _ _ | .str _ _ _ | .sti _ _ | .jsr _ | .jsrr _ | .jmp _ | .rti | .res _ => s.cond)

/-- BR is the only reader of COND (R26): any other instruction does the same, COND apart, whatever COND was. -/
def Obligations.OnlyBranchReadsCond : Prop :=
  ∀ (i : Instr) (s : State) (c : Cond), (∀ n z p off, i ≠ .br n z p off) →
    eraseCond (exec i (s.setCond c)) = eraseCond (exec i s)

/-- Every step keeps the memory in its canonical form, from any state in which it is. -/
def Obligations.StepKeepsMemoryCanonical : Prop :=
  ∀ s t : State, s.mem.wf → step s = .next t → t.mem.wf

/-- Every step only appends to the output and only takes from the front of the input, and no step clears the termination
request (R30, 60_exceptions.md R155). -/
def Obligations.StepKeepsHostPromises : Prop :=
  ∀ s t : State, step s = .next t →
    s.output <+: t.output ∧ t.input <:+ s.input ∧ (s.interruptRequested = true → t.interruptRequested = true)

/-- The only ways a cycle halts the engine (R150, R156 (a), R124): TRAP HALT, a RES word, an unknown vector, each with what it
records, or the termination request. -/
def Obligations.OnlyTheseHalt : Prop :=
  ∀ (s t : State) (why : HaltReason), step s = .next t → t.run = .halted why →
    match why with
    | .haltTrap => s.pc ≠ kbsr ∧ decode (s.mem.peek s.pc) = .trap 0x25
    | .illegalOpcode w a => s.pc ≠ kbsr ∧ a = s.pc ∧ w = s.mem.peek s.pc ∧ opcodeField w = 0xD#4
    | .illegalTrapVector v a =>
      s.pc ≠ kbsr ∧ a = s.pc ∧ decode (s.mem.peek s.pc) = .trap v ∧ (v.toNat < 0x20 ∨ 0x25 < v.toNat)
    | .interruptRequested => t.interruptRequested = true

/-- A store to the next instruction's cell is what the next cycle runs (20_memory.md R57). -/
def Obligations.StoreReachesNextFetch : Prop :=
  ∀ (s : State) (sr : Reg), s.run = .running → s.noRequest → s.pc ≠ kbsr → s.pc + 1 ≠ kbsr →
    decode (s.mem.peek s.pc) = .st sr 0 →
    ∃ t, step s = .next t ∧ t.pc = s.pc + 1 ∧ t.mem.peek (s.pc + 1) = s.reg sr ∧
      step t = exec (decode (s.reg sr)) { t with pc := s.pc + 2 }

/-! ## Loading -/

/-- LoadImage (70_reset_and_hazards.md R173): the payload's big-endian words stand from the origin on, as far as memory goes,
every other cell is unchanged, and nothing wraps. That an odd byte at the end loads nothing is the spec's decision D23 (log 20),
the canonical form the model's own (log 1). -/
def Obligations.LoadImageCells : Prop :=
  ∀ (m : Memory) (hi lo : Byte) (payload : List Byte), ∃ m', loadImage m (hi :: lo :: payload) = some m' ∧
    (m.wf → m'.wf) ∧
    ∀ a : Word,
      m'.peek a =
        if 256 * hi.toNat + lo.toNat ≤ a.toNat ∧ 2 * (a.toNat - (256 * hi.toNat + lo.toNat)) + 1 < payload.length
        then payload.getD (2 * (a.toNat - (256 * hi.toNat + lo.toNat))) 0 ++
          payload.getD (2 * (a.toNat - (256 * hi.toNat + lo.toNat)) + 1) 0
        else m.peek a

/-- The edge cases of R174 (decision D23): no origin word is a load failure, an odd byte at the end is ignored, an origin alone
loads nothing. -/
def Obligations.LoadImageEdgeCases : Prop :=
  (∀ m : Memory, loadImage m [] = none) ∧ (∀ (m : Memory) (b : Byte), loadImage m [b] = none) ∧
  (∀ (m : Memory) (hi lo : Byte), loadImage m [hi, lo] = some m) ∧
  (∀ (m : Memory) (hi lo : Byte) (payload : List Byte) (b : Byte), payload.length % 2 = 0 →
    loadImage m (hi :: lo :: (payload ++ [b])) = loadImage m (hi :: lo :: payload))

/-- No image changes nothing. Images are loaded in order before the first cycle, the later one last (R170, R172, decision D22), and every other part of
the state is as reset leaves it. -/
def Obligations.ImagesLoadInOrder : Prop :=
  (∀ m : Memory, loadImages m [] = some m) ∧ boot [] = some State.reset ∧
  (∀ (m : Memory) (images : List (List Byte)) (last : List Byte),
    loadImages m (images ++ [last]) = (loadImages m images).bind fun m' => loadImage m' last) ∧
  (∀ images : List (List Byte),
    boot images = (loadImages State.reset.mem images).map fun m => { State.reset with mem := m })

/-! ## The termination request in a string walk -/

/-- A request can abandon PUTS and PUTSP after any of the bytes of the n character cells they have come to, PUTSP's low byte
without its high byte among them, and these bytes stay in the output with nothing else moved but R7. On a whole string nothing
else comes of a request, whenever it arrives: it abandons the walk after some of the bytes, or finds it ended (60_exceptions.md
R155, decision D17; log 13). -/
def Obligations.RequestAbandonsStringWalk : Prop :=
  ∀ (packed : Bool) (s : State) (n : Nat), s.interruptRequested = false →
    (Config.params.stringReadMode = .plain ∨ ∀ i, i ≤ n → s.reg .r0 + BitVec.ofNat 16 i ≠ kbsr) →
    (∀ i, i < n → s.mem.peek (s.reg .r0 + BitVec.ofNat 16 i) ≠ 0) →
    let bytes := s.mem.stringBytes packed (s.reg .r0) n
    let abandonedAfter := fun j : Nat =>
      { s.requestTaken with regs := s.regs.set .r7 s.pc, output := s.output ++ bytes.take j }
    (∀ j, j ≤ bytes.length → ∃ k,
      exec (.trap (stringVector packed)) { s with requestIn := some k } = .next (abandonedAfter j)) ∧
    (n < 65536 → s.mem.peek (s.reg .r0 + BitVec.ofNat 16 n) = 0 → ∀ k,
      (∃ j, j ≤ bytes.length ∧
        exec (.trap (stringVector packed)) { s with requestIn := some k } = .next (abandonedAfter j)) ∨
      ∃ later, exec (.trap (stringVector packed)) { s with requestIn := some k } = .next { s with
        regs := s.regs.set .r7 s.pc, output := s.output ++ bytes, requestIn := some later })
end

