-- ==== Sys2Proof/Laws/PerInstr.lean ====
section
/-! SUPPORT. Facts about every instruction as syntax, one lemma per constructor. -/

namespace Sys2Proof

@[simp] theorem Reg.ofField_toField (r : Reg) : Reg.ofField r.toField = r := by cases r <;> rfl

theorem Reg.toField_ofField (b : BitVec 3) : (Reg.ofField b).toField = b := by
  have h : ∀ c : BitVec 3, (Reg.ofField c).toField = c := by decide
  exact h b

/-- The opcode field of a word whose highest four bits are written first. -/
theorem opcodeField_append (op : BitVec 4) (rest : BitVec 12) : opcodeField (op ++ rest) = op := by
  unfold opcodeField
  exact (BitVec.extractLsb'_append_eq_of_le (by decide)).trans (by simp)

end Sys2Proof

/-- The canonical word of a well-formed instruction has the opcode of the instruction's row
(spec/30_encoding.md R61, opcode_table.json). -/
def Sys2Proof.Laws.Encoding.Statement (i : Sys2Proof.Instr) : Prop :=
  i.wellFormed = true → Sys2Proof.opcodeField (Sys2Proof.encode i) = Sys2Proof.opcodeField i.row.pattern

open Sys2Proof

theorem Sys2Proof.Laws.Encoding.br (n z p : Bool) (off : BitVec 9) :
    Sys2Proof.Laws.Encoding.Statement (.br n z p off) :=
  fun _ => (opcodeField_append _ _).trans (by simp only [Instr.row]; decide)

theorem Sys2Proof.Laws.Encoding.addReg (dr sr1 sr2 : Reg) :
    Sys2Proof.Laws.Encoding.Statement (.addReg dr sr1 sr2) :=
  fun _ => (opcodeField_append _ _).trans (by simp only [Instr.row]; decide)

theorem Sys2Proof.Laws.Encoding.addImm (dr sr1 : Reg) (imm : BitVec 5) :
    Sys2Proof.Laws.Encoding.Statement (.addImm dr sr1 imm) :=
  fun _ => (opcodeField_append _ _).trans (by simp only [Instr.row]; decide)

theorem Sys2Proof.Laws.Encoding.ld (dr : Reg) (off : BitVec 9) :
    Sys2Proof.Laws.Encoding.Statement (.ld dr off) :=
  fun _ => (opcodeField_append _ _).trans (by simp only [Instr.row]; decide)

theorem Sys2Proof.Laws.Encoding.st (sr : Reg) (off : BitVec 9) :
    Sys2Proof.Laws.Encoding.Statement (.st sr off) :=
  fun _ => (opcodeField_append _ _).trans (by simp only [Instr.row]; decide)

theorem Sys2Proof.Laws.Encoding.jsr (off : BitVec 11) :
    Sys2Proof.Laws.Encoding.Statement (.jsr off) :=
  fun _ => (opcodeField_append _ _).trans (by simp only [Instr.row]; decide)

theorem Sys2Proof.Laws.Encoding.jsrr (base : Reg) :
    Sys2Proof.Laws.Encoding.Statement (.jsrr base) :=
  fun _ => (opcodeField_append _ _).trans (by simp only [Instr.row]; decide)

theorem Sys2Proof.Laws.Encoding.andReg (dr sr1 sr2 : Reg) :
    Sys2Proof.Laws.Encoding.Statement (.andReg dr sr1 sr2) :=
  fun _ => (opcodeField_append _ _).trans (by simp only [Instr.row]; decide)

theorem Sys2Proof.Laws.Encoding.andImm (dr sr1 : Reg) (imm : BitVec 5) :
    Sys2Proof.Laws.Encoding.Statement (.andImm dr sr1 imm) :=
  fun _ => (opcodeField_append _ _).trans (by simp only [Instr.row]; decide)

theorem Sys2Proof.Laws.Encoding.ldr (dr base : Reg) (off : BitVec 6) :
    Sys2Proof.Laws.Encoding.Statement (.ldr dr base off) :=
  fun _ => (opcodeField_append _ _).trans (by simp only [Instr.row]; decide)

theorem Sys2Proof.Laws.Encoding.str (sr base : Reg) (off : BitVec 6) :
    Sys2Proof.Laws.Encoding.Statement (.str sr base off) :=
  fun _ => (opcodeField_append _ _).trans (by simp only [Instr.row]; decide)

theorem Sys2Proof.Laws.Encoding.rti :
    Sys2Proof.Laws.Encoding.Statement (.rti) :=
  fun _ => (opcodeField_append _ _).trans (by simp only [Instr.row]; decide)

theorem Sys2Proof.Laws.Encoding.not (dr sr : Reg) :
    Sys2Proof.Laws.Encoding.Statement (.not dr sr) :=
  fun _ => (opcodeField_append _ _).trans (by simp only [Instr.row]; decide)

theorem Sys2Proof.Laws.Encoding.ldi (dr : Reg) (off : BitVec 9) :
    Sys2Proof.Laws.Encoding.Statement (.ldi dr off) :=
  fun _ => (opcodeField_append _ _).trans (by simp only [Instr.row]; decide)

theorem Sys2Proof.Laws.Encoding.sti (sr : Reg) (off : BitVec 9) :
    Sys2Proof.Laws.Encoding.Statement (.sti sr off) :=
  fun _ => (opcodeField_append _ _).trans (by simp only [Instr.row]; decide)

theorem Sys2Proof.Laws.Encoding.jmp (base : Reg) :
    Sys2Proof.Laws.Encoding.Statement (.jmp base) :=
  fun _ => (opcodeField_append _ _).trans (by simp only [Instr.row]; decide)

theorem Sys2Proof.Laws.Encoding.res (word : Word) :
    Sys2Proof.Laws.Encoding.Statement (.res word) :=
  fun h => (beq_iff_eq.1 h).trans (by simp only [Instr.row]; decide)

theorem Sys2Proof.Laws.Encoding.lea (dr : Reg) (off : BitVec 9) :
    Sys2Proof.Laws.Encoding.Statement (.lea dr off) :=
  fun _ => (opcodeField_append _ _).trans (by simp only [Instr.row]; decide)

theorem Sys2Proof.Laws.Encoding.trap (vect : BitVec 8) :
    Sys2Proof.Laws.Encoding.Statement (.trap vect) :=
  fun _ => (opcodeField_append _ _).trans (by simp only [Instr.row]; decide)
end

