-- ==== Sys2Proof/Laws/Decode.lean ====
section
/-! SUPPORT. What each field of a word is, for a word written as its fields, most significant first
(spec/30_encoding.md R62, R63). -/

namespace Sys2Proof

theorem getLsbD_append_high {v w : Nat} (x : BitVec v) (y : BitVec w) {i : Nat} (h : w ≤ i) :
    (x ++ y).getLsbD i = x.getLsbD (i - w) := by
  rw [BitVec.getLsbD_append]; simp [show ¬i < w by omega]

theorem getLsbD_append_low {v w : Nat} (x : BitVec v) (y : BitVec w) {i : Nat} (h : i < w) :
    (x ++ y).getLsbD i = y.getLsbD i := by
  rw [BitVec.getLsbD_append]; simp [h]

/-- The immediate-mode bit of ADD and AND. -/
theorem bit5_append (op : BitVec 4) (a b : BitVec 3) (m : BitVec 1) (rest : BitVec 5) :
    BitVec.getLsbD (w := 16) (op ++ (a ++ (b ++ (m ++ rest)))) 5 = m.getLsbD 0 := by
  rw [getLsbD_append_low _ _ (by decide), getLsbD_append_low _ _ (by decide),
    getLsbD_append_low _ _ (by decide), getLsbD_append_high _ _ (by decide)]

/-- The JSR bit, and the n bit of BR. -/
theorem bit11_append (op : BitVec 4) (b : BitVec 1) (rest : BitVec 11) :
    BitVec.getLsbD (w := 16) (op ++ (b ++ rest)) 11 = b.getLsbD 0 := by
  rw [getLsbD_append_low _ _ (by decide), getLsbD_append_high _ _ (by decide)]

/-- The z bit of BR. -/
theorem bit10_append (op : BitVec 4) (a b : BitVec 1) (rest : BitVec 10) :
    BitVec.getLsbD (w := 16) (op ++ (a ++ (b ++ rest))) 10 = b.getLsbD 0 := by
  rw [getLsbD_append_low _ _ (by decide), getLsbD_append_low _ _ (by decide),
    getLsbD_append_high _ _ (by decide)]

/-- The p bit of BR. -/
theorem bit9_append (op : BitVec 4) (a b c : BitVec 1) (rest : BitVec 9) :
    BitVec.getLsbD (w := 16) (op ++ (a ++ (b ++ (c ++ rest)))) 9 = c.getLsbD 0 := by
  rw [getLsbD_append_low _ _ (by decide), getLsbD_append_low _ _ (by decide),
    getLsbD_append_low _ _ (by decide), getLsbD_append_high _ _ (by decide)]

theorem fieldDR_append (op : BitVec 4) (r : Reg) (rest : BitVec 9) :
    fieldDR (op ++ (r.toField ++ rest)) = r := by
  simp only [fieldDR]
  rw [BitVec.extractLsb'_append_eq_of_add_le (by decide), BitVec.extractLsb'_append_eq_of_le (by decide)]
  simp

theorem fieldBase_append (op : BitVec 4) (a : BitVec 3) (r : Reg) (rest : BitVec 6) :
    fieldBase (op ++ (a ++ (r.toField ++ rest))) = r := by
  simp only [fieldBase]
  rw [BitVec.extractLsb'_append_eq_of_add_le (by decide), BitVec.extractLsb'_append_eq_of_add_le (by decide),
    BitVec.extractLsb'_append_eq_of_le (by decide)]
  simp

/-- The base field of JSRR, behind its select bit and two ignored bits. -/
theorem fieldBase_append_jsrr (op : BitVec 4) (a : BitVec 1) (b : BitVec 2) (r : Reg) (rest : BitVec 6) :
    fieldBase (op ++ (a ++ (b ++ (r.toField ++ rest)))) = r := by
  simp only [fieldBase]
  rw [BitVec.extractLsb'_append_eq_of_add_le (by decide), BitVec.extractLsb'_append_eq_of_add_le (by decide),
    BitVec.extractLsb'_append_eq_of_add_le (by decide), BitVec.extractLsb'_append_eq_of_le (by decide)]
  simp

theorem fieldSR2_append (op : BitVec 4) (a b : BitVec 3) (c : BitVec 1) (d : BitVec 2) (r : Reg) :
    fieldSR2 (op ++ (a ++ (b ++ (c ++ (d ++ r.toField))))) = r := by
  simp only [fieldSR2]
  iterate 5 rw [BitVec.extractLsb'_append_eq_of_add_le (by decide)]
  simp

theorem fieldImm5_append (op : BitVec 4) (a b : BitVec 3) (c : BitVec 1) (v : BitVec 5) :
    fieldImm5 (op ++ (a ++ (b ++ (c ++ v)))) = v := by
  simp only [fieldImm5]
  iterate 4 rw [BitVec.extractLsb'_append_eq_of_add_le (by decide)]
  simp

theorem fieldOff6_append (op : BitVec 4) (a b : BitVec 3) (v : BitVec 6) :
    fieldOff6 (op ++ (a ++ (b ++ v))) = v := by
  simp only [fieldOff6]
  iterate 3 rw [BitVec.extractLsb'_append_eq_of_add_le (by decide)]
  simp

theorem fieldOff9_append (op : BitVec 4) (a : BitVec 3) (v : BitVec 9) : fieldOff9 (op ++ (a ++ v)) = v := by
  simp only [fieldOff9]
  iterate 2 rw [BitVec.extractLsb'_append_eq_of_add_le (by decide)]
  simp

/-- PCoffset9 of BR, behind its three condition bits. -/
theorem fieldOff9_append_br (op : BitVec 4) (a b c : BitVec 1) (v : BitVec 9) :
    fieldOff9 (op ++ (a ++ (b ++ (c ++ v)))) = v := by
  simp only [fieldOff9]
  iterate 4 rw [BitVec.extractLsb'_append_eq_of_add_le (by decide)]
  simp

theorem fieldOff11_append (op : BitVec 4) (a : BitVec 1) (v : BitVec 11) : fieldOff11 (op ++ (a ++ v)) = v := by
  simp only [fieldOff11]
  iterate 2 rw [BitVec.extractLsb'_append_eq_of_add_le (by decide)]
  simp

theorem fieldVect_append (op : BitVec 4) (a : BitVec 4) (v : BitVec 8) : fieldVect (op ++ (a ++ v)) = v := by
  simp only [fieldVect]
  iterate 2 rw [BitVec.extractLsb'_append_eq_of_add_le (by decide)]
  simp

end Sys2Proof
end

