-- ==== Sys2Proof/Laws/Memory.lean ====
section
/-! SUPPORT. The laws of memory: a read after a write, and that every write keeps the canonical form. -/

namespace Sys2Proof.Machine

/-! ## Bytes -/

theorem Memory.readByte_eraseByte (m : Memory) (a b : Nat) :
    (m.eraseByte a).readByte b = if b = a then unlistedByte else m.readByte b := by
  induction m with
  | nil => simp [Memory.eraseByte, Memory.readByte]
  | cons c rest ih =>
    obtain ⟨k, v⟩ := c
    by_cases hk : k = a
    · by_cases hb : b = a
      · simpa [Memory.eraseByte, hk, hb] using ih
      · simp_all [Memory.eraseByte, Memory.readByte, Ne.symm hb]
    · by_cases hkb : k = b
      · simp [Memory.eraseByte, Memory.readByte, hkb, show b ≠ a from hkb ▸ hk]
      · simpa [Memory.eraseByte, Memory.readByte, hk, hkb] using ih

theorem Memory.readByte_insertByte (m : Memory) (a b : Nat) (v : Byte) (h : ∀ c ∈ m, c.1 ≠ a) :
    (m.insertByte a v).readByte b = if b = a then v else m.readByte b := by
  induction m with
  | nil => simp [Memory.insertByte, Memory.readByte, eq_comm]
  | cons c rest ih =>
    obtain ⟨k, u⟩ := c
    simp only [List.mem_cons, forall_eq_or_imp] at h
    have ih := ih h.2
    unfold Memory.insertByte
    split
    · simp only [Memory.readByte, eq_comm (a := a)]
    · by_cases hkb : k = b
      · simp [Memory.readByte, hkb, show b ≠ a from hkb ▸ h.1]
      · simpa [Memory.readByte, hkb] using ih

theorem Memory.not_mem_eraseByte (m : Memory) (a : Nat) : ∀ c ∈ m.eraseByte a, c.1 ≠ a := by
  induction m with
  | nil => simp [Memory.eraseByte]
  | cons c rest ih =>
    obtain ⟨k, v⟩ := c
    unfold Memory.eraseByte
    split
    · exact ih
    · rename_i hk
      simpa [hk] using ih

/-- A byte reads as last written, and every other byte as before. -/
theorem Memory.readByte_writeByte (m : Memory) (a b : Nat) (v : Byte) :
    (m.writeByte a v).readByte b = if b = a then v else m.readByte b := by
  unfold Memory.writeByte
  split
  · rename_i hv
    rw [Memory.readByte_eraseByte, hv]
  · rw [Memory.readByte_insertByte _ _ _ _ (m.not_mem_eraseByte a), Memory.readByte_eraseByte]
    split <;> rfl

/-! ## Words -/

theorem highByte_append_lowByte (w : Word) : highByte w ++ lowByte w = w := by
  apply BitVec.eq_of_getLsbD_eq
  intro i hi
  have h := BitVec.getLsbD_append (x := highByte w) (y := lowByte w) (i := i)
  refine h.trans ?_
  by_cases h8 : i < 8
  · simp [lowByte, h8]
  · have hi' : 8 + (i - 8) = i := by omega
    simp [highByte, h8, show i - 8 < 8 by omega, hi', BitVec.getLsbD_eq_getElem hi]

theorem lowByte_append (h l : Byte) : lowByte (h ++ l) = l := by
  apply BitVec.eq_of_getLsbD_eq
  intro i hi
  have e := BitVec.getLsbD_append (x := h) (y := l) (i := i)
  simp only [lowByte, BitVec.getLsbD_extractLsb', hi, decide_true, Bool.true_and, Nat.zero_add]
  exact e.trans (by simp [hi])

theorem highByte_append (h l : Byte) : highByte (h ++ l) = h := by
  apply BitVec.eq_of_getLsbD_eq
  intro i hi
  have e := BitVec.getLsbD_append (x := h) (y := l) (i := 8 + i)
  simp only [highByte, BitVec.getLsbD_extractLsb', hi, decide_true, Bool.true_and]
  exact e.trans (by simp)

/-- Storing a word changes exactly its two bytes. -/
theorem Memory.readByte_poke (m : Memory) (a v : Word) (k : Nat) :
    (m.poke a v).readByte k =
      if k = 2 * a.toNat + 1 then highByte v else if k = 2 * a.toNat then lowByte v else m.readByte k := by
  simp only [Memory.poke, Memory.readByte_writeByte]

/-- A word reads as last stored, and every other word as before (20_memory.md R53). -/
@[simp] theorem Memory.peek_poke (m : Memory) (a b v : Word) :
    (m.poke a v).peek b = if b = a then v else m.peek b := by
  simp only [Memory.peek, Memory.readByte_poke]
  by_cases h : b = a
  · subst h
    simp [highByte_append_lowByte]
  · have hne : b.toNat ≠ a.toNat := fun e => h (BitVec.eq_of_toNat_eq e)
    have h2 : 2 * b.toNat + 1 ≠ 2 * a.toNat := by omega
    have h3 : 2 * b.toNat ≠ 2 * a.toNat + 1 := by omega
    simp [h2, h3, h, hne]

theorem Memory.peek_nil (a : Word) : Memory.peek [] a = 0 := by
  simp [Memory.peek, Memory.readByte, unlistedByte]

/-! ## Canonical form -/

theorem Memory.mem_eraseByte {m : Memory} {a : Nat} {c : Host.Cell} (h : c ∈ m.eraseByte a) : c ∈ m := by
  induction m with
  | nil => simp [Memory.eraseByte] at h
  | cons d rest ih =>
    obtain ⟨k, v⟩ := d
    unfold Memory.eraseByte at h
    split at h
    · exact List.mem_cons_of_mem _ (ih h)
    · rcases List.mem_cons.1 h with h | h
      · exact List.mem_cons.2 (.inl h)
      · exact List.mem_cons_of_mem _ (ih h)

theorem Memory.mem_insertByte {m : Memory} {a : Nat} {v : Byte} {c : Host.Cell} (h : c ∈ m.insertByte a v) :
    c = (a, v) ∨ c ∈ m := by
  induction m with
  | nil => simpa [Memory.insertByte] using h
  | cons d rest ih =>
    obtain ⟨k, u⟩ := d
    unfold Memory.insertByte at h
    split at h
    · simpa using h
    · rcases List.mem_cons.1 h with h | h
      · exact .inr (List.mem_cons.2 (.inl h))
      · exact (ih h).imp_right (List.mem_cons_of_mem _)

theorem Memory.wf_eraseByte {m : Memory} (h : m.wf) (a : Nat) : (m.eraseByte a).wf := by
  refine ⟨?_, fun c hc => h.2 c (Memory.mem_eraseByte hc)⟩
  have h1 := h.1
  clear h
  induction m with
  | nil => simp [Memory.eraseByte]
  | cons d rest ih =>
    obtain ⟨k, v⟩ := d
    rw [List.pairwise_cons] at h1
    unfold Memory.eraseByte
    split
    · exact ih h1.2
    · exact List.pairwise_cons.2 ⟨fun c hc => h1.1 c (Memory.mem_eraseByte hc), ih h1.2⟩

theorem Memory.wf_insertByte {m : Memory} (h : m.wf) {a : Nat} {v : Byte} (ha : a < 2 * 65536)
    (hv : v ≠ unlistedByte) (hn : ∀ c ∈ m, c.1 ≠ a) : (m.insertByte a v).wf := by
  refine ⟨?_, fun c hc => ?_⟩
  · have h1 := h.1
    clear h
    induction m with
    | nil => simp [Memory.insertByte]
    | cons d rest ih =>
      obtain ⟨k, u⟩ := d
      have hp := List.pairwise_cons.1 h1
      unfold Memory.insertByte
      split
      · rename_i hlt
        refine List.pairwise_cons.2 ⟨fun c hc => ?_, h1⟩
        rcases List.mem_cons.1 hc with hc | hc
        · subst hc; exact hlt
        · exact lt_trans hlt (hp.1 c hc)
      · rename_i hlt
        have hne : k ≠ a := hn (k, u) (List.mem_cons.2 (.inl rfl))
        refine List.pairwise_cons.2 ⟨fun c hc => ?_, ih (fun c hc => hn c (List.mem_cons_of_mem _ hc)) hp.2⟩
        rcases Memory.mem_insertByte hc with hc | hc
        · subst hc; show k < a; omega
        · exact hp.1 c hc
  · rcases Memory.mem_insertByte hc with hc | hc
    · subst hc; exact ⟨ha, hv⟩
    · exact h.2 c hc

theorem Memory.wf_writeByte {m : Memory} (h : m.wf) {a : Nat} (ha : a < 2 * 65536) (v : Byte) :
    (m.writeByte a v).wf := by
  unfold Memory.writeByte
  split
  · exact Memory.wf_eraseByte h a
  · rename_i hv
    exact Memory.wf_insertByte (Memory.wf_eraseByte h a) ha hv (m.not_mem_eraseByte a)

/-- Storing a word keeps the canonical form. -/
theorem Memory.wf_poke {m : Memory} (h : m.wf) (a v : Word) : (m.poke a v).wf :=
  Memory.wf_writeByte (Memory.wf_writeByte h (by omega) _) (by omega) _

theorem Memory.wf_nil : Memory.wf [] := by simp [Memory.wf]

theorem Memory.readByte_of_lt {m : Memory} {a : Nat} (h : ∀ c ∈ m, a < c.1) : m.readByte a = unlistedByte := by
  induction m with
  | nil => rfl
  | cons d rest ih =>
    obtain ⟨k, v⟩ := d
    simp only [List.mem_cons, forall_eq_or_imp] at h
    have hk : a < k := h.1
    simp [Memory.readByte, show k ≠ a by omega, ih h.2]

/-- Canonical memories that read alike are the same list. -/
theorem Memory.ext_readByte {m n : Memory} (hm : m.wf) (hn : n.wf) (h : ∀ k, m.readByte k = n.readByte k) : m = n := by
  induction m generalizing n with
  | nil =>
    cases n with
    | nil => rfl
    | cons d rest =>
      have := h d.1
      simp only [Memory.readByte, ↓reduceIte] at this
      exact absurd this.symm (hn.2 d (by simp)).2
  | cons c rest ih =>
    obtain ⟨k, v⟩ := c
    have hmp := List.pairwise_cons.1 hm.1
    have hkv : v ≠ unlistedByte := (hm.2 (k, v) (by simp)).2
    cases n with
    | nil =>
      have := h k
      simp only [Memory.readByte, ↓reduceIte] at this
      exact absurd this hkv
    | cons d rest' =>
      obtain ⟨k', v'⟩ := d
      have hnp := List.pairwise_cons.1 hn.1
      have hkv' : v' ≠ unlistedByte := (hn.2 (k', v') (by simp)).2
      have hk : k = k' := by
        rcases Nat.lt_trichotomy k k' with hlt | heq | hgt
        · have h0 := Memory.readByte_of_lt (m := (k', v') :: rest') (a := k) (by
            intro c hc
            rcases List.mem_cons.1 hc with hc | hc
            · subst hc; exact hlt
            · exact lt_trans hlt (hnp.1 c hc))
          have := h k
          rw [h0] at this
          simp only [Memory.readByte, ↓reduceIte] at this
          exact absurd this hkv
        · exact heq
        · have h0 := Memory.readByte_of_lt (m := (k, v) :: rest) (a := k') (by
            intro c hc
            rcases List.mem_cons.1 hc with hc | hc
            · subst hc; exact hgt
            · exact lt_trans hgt (hmp.1 c hc))
          have := h k'
          rw [h0] at this
          simp only [Memory.readByte, ↓reduceIte] at this
          exact absurd this.symm hkv'
      subst hk
      have hv : v = v' := by simpa [Memory.readByte] using h k
      subst hv
      have hrest : rest = rest' := by
        refine ih ⟨hmp.2, fun c hc => hm.2 c (List.mem_cons_of_mem _ hc)⟩
          ⟨hnp.2, fun c hc => hn.2 c (List.mem_cons_of_mem _ hc)⟩ fun j => ?_
        by_cases hj : k = j
        · subst hj
          rw [Memory.readByte_of_lt hmp.1, Memory.readByte_of_lt hnp.1]
        · have := h j
          simpa [Memory.readByte, hj] using this
      rw [hrest]

end Sys2Proof.Machine
end

