-- ==== Sys2Proof/Laws/State.lean ====
section
/-! SUPPORT. What each named update of the state does to each field, and what reading a register gives after it,
so that no later proof unfolds a record update. -/

namespace Sys2Proof.Machine

variable (s : State)

/-! ## Reading a register after writing one -/

@[simp] theorem RegFile.get_set (f : RegFile) (r q : Reg) (v : Word) :
    (f.set r v).get q = if q = r then v else f.get q := by
  cases r <;> cases q <;> rfl

@[simp] theorem RegFile.set_get (f : RegFile) (r : Reg) : f.set r (f.get r) = f := by
  cases r <;> rfl

@[simp] theorem RegFile.set_set (f : RegFile) (r : Reg) (v w : Word) : (f.set r v).set r w = f.set r w := by
  cases r <;> rfl

theorem RegFile.set_comm (f : RegFile) {r q : Reg} (h : r ≠ q) (v w : Word) :
    (f.set r v).set q w = (f.set q w).set r v := by
  cases r <;> cases q <;> first | rfl | exact absurd rfl h

theorem RegFile.ext_get {f g : RegFile} (h : ∀ r, f.get r = g.get r) : f = g := by
  cases f; cases g
  have h0 := h .r0; have h1 := h .r1; have h2 := h .r2; have h3 := h .r3
  have h4 := h .r4; have h5 := h .r5; have h6 := h .r6; have h7 := h .r7
  simp only [RegFile.get] at h0 h1 h2 h3 h4 h5 h6 h7
  subst h0 h1 h2 h3 h4 h5 h6 h7
  rfl


/-! ## setReg -/

@[simp] theorem State.setReg_regs (r : Reg) (v : Word) : (s.setReg r v).regs = s.regs.set r v := rfl
@[simp] theorem State.setReg_pc (r : Reg) (v : Word) : (s.setReg r v).pc = s.pc := rfl
@[simp] theorem State.setReg_cond (r : Reg) (v : Word) : (s.setReg r v).cond = s.cond := rfl
@[simp] theorem State.setReg_mem (r : Reg) (v : Word) : (s.setReg r v).mem = s.mem := rfl
@[simp] theorem State.setReg_run (r : Reg) (v : Word) : (s.setReg r v).run = s.run := rfl
@[simp] theorem State.setReg_input (r : Reg) (v : Word) : (s.setReg r v).input = s.input := rfl
@[simp] theorem State.setReg_output (r : Reg) (v : Word) : (s.setReg r v).output = s.output := rfl
@[simp] theorem State.setReg_interruptRequested (r : Reg) (v : Word) : (s.setReg r v).interruptRequested = s.interruptRequested := rfl
@[simp] theorem State.setReg_pollAnswers (r : Reg) (v : Word) : (s.setReg r v).pollAnswers = s.pollAnswers := rfl
@[simp] theorem State.setReg_draws (r : Reg) (v : Word) : (s.setReg r v).draws = s.draws := rfl
@[simp] theorem State.setReg_requestIn (r : Reg) (v : Word) : (s.setReg r v).requestIn = s.requestIn := rfl
@[simp] theorem State.setReg_reg (r q : Reg) (v : Word) :
    (s.setReg r v).reg q = if q = r then v else s.reg q := RegFile.get_set s.regs r q v

/-! ## setPc -/

@[simp] theorem State.setPc_regs (p : Word) : (s.setPc p).regs = s.regs := rfl
@[simp] theorem State.setPc_pc (p : Word) : (s.setPc p).pc = p := rfl
@[simp] theorem State.setPc_cond (p : Word) : (s.setPc p).cond = s.cond := rfl
@[simp] theorem State.setPc_mem (p : Word) : (s.setPc p).mem = s.mem := rfl
@[simp] theorem State.setPc_run (p : Word) : (s.setPc p).run = s.run := rfl
@[simp] theorem State.setPc_input (p : Word) : (s.setPc p).input = s.input := rfl
@[simp] theorem State.setPc_output (p : Word) : (s.setPc p).output = s.output := rfl
@[simp] theorem State.setPc_interruptRequested (p : Word) : (s.setPc p).interruptRequested = s.interruptRequested := rfl
@[simp] theorem State.setPc_pollAnswers (p : Word) : (s.setPc p).pollAnswers = s.pollAnswers := rfl
@[simp] theorem State.setPc_draws (p : Word) : (s.setPc p).draws = s.draws := rfl
@[simp] theorem State.setPc_requestIn (p : Word) : (s.setPc p).requestIn = s.requestIn := rfl
@[simp] theorem State.setPc_reg (p : Word) (q : Reg) : (s.setPc p).reg q = s.reg q := rfl

/-! ## setCond -/

@[simp] theorem State.setCond_regs (c : Cond) : (s.setCond c).regs = s.regs := rfl
@[simp] theorem State.setCond_pc (c : Cond) : (s.setCond c).pc = s.pc := rfl
@[simp] theorem State.setCond_cond (c : Cond) : (s.setCond c).cond = c := rfl
@[simp] theorem State.setCond_mem (c : Cond) : (s.setCond c).mem = s.mem := rfl
@[simp] theorem State.setCond_run (c : Cond) : (s.setCond c).run = s.run := rfl
@[simp] theorem State.setCond_input (c : Cond) : (s.setCond c).input = s.input := rfl
@[simp] theorem State.setCond_output (c : Cond) : (s.setCond c).output = s.output := rfl
@[simp] theorem State.setCond_interruptRequested (c : Cond) : (s.setCond c).interruptRequested = s.interruptRequested := rfl
@[simp] theorem State.setCond_pollAnswers (c : Cond) : (s.setCond c).pollAnswers = s.pollAnswers := rfl
@[simp] theorem State.setCond_draws (c : Cond) : (s.setCond c).draws = s.draws := rfl
@[simp] theorem State.setCond_requestIn (c : Cond) : (s.setCond c).requestIn = s.requestIn := rfl
@[simp] theorem State.setCond_reg (c : Cond) (q : Reg) : (s.setCond c).reg q = s.reg q := rfl

/-! ## memWrite -/

@[simp] theorem State.memWrite_regs (a v : Word) : (s.memWrite a v).regs = s.regs := rfl
@[simp] theorem State.memWrite_pc (a v : Word) : (s.memWrite a v).pc = s.pc := rfl
@[simp] theorem State.memWrite_cond (a v : Word) : (s.memWrite a v).cond = s.cond := rfl
@[simp] theorem State.memWrite_mem (a v : Word) : (s.memWrite a v).mem = s.mem.poke a v := rfl
@[simp] theorem State.memWrite_run (a v : Word) : (s.memWrite a v).run = s.run := rfl
@[simp] theorem State.memWrite_input (a v : Word) : (s.memWrite a v).input = s.input := rfl
@[simp] theorem State.memWrite_output (a v : Word) : (s.memWrite a v).output = s.output := rfl
@[simp] theorem State.memWrite_interruptRequested (a v : Word) : (s.memWrite a v).interruptRequested = s.interruptRequested := rfl
@[simp] theorem State.memWrite_pollAnswers (a v : Word) : (s.memWrite a v).pollAnswers = s.pollAnswers := rfl
@[simp] theorem State.memWrite_draws (a v : Word) : (s.memWrite a v).draws = s.draws := rfl
@[simp] theorem State.memWrite_requestIn (a v : Word) : (s.memWrite a v).requestIn = s.requestIn := rfl
@[simp] theorem State.memWrite_reg (a v : Word) (q : Reg) : (s.memWrite a v).reg q = s.reg q := rfl

/-! ## put -/

@[simp] theorem State.put_regs (bs : List Byte) : (s.put bs).regs = s.regs := rfl
@[simp] theorem State.put_pc (bs : List Byte) : (s.put bs).pc = s.pc := rfl
@[simp] theorem State.put_cond (bs : List Byte) : (s.put bs).cond = s.cond := rfl
@[simp] theorem State.put_mem (bs : List Byte) : (s.put bs).mem = s.mem := rfl
@[simp] theorem State.put_run (bs : List Byte) : (s.put bs).run = s.run := rfl
@[simp] theorem State.put_input (bs : List Byte) : (s.put bs).input = s.input := rfl
@[simp] theorem State.put_output (bs : List Byte) : (s.put bs).output = s.output ++ bs := rfl
@[simp] theorem State.put_interruptRequested (bs : List Byte) : (s.put bs).interruptRequested = s.interruptRequested := rfl
@[simp] theorem State.put_pollAnswers (bs : List Byte) : (s.put bs).pollAnswers = s.pollAnswers := rfl
@[simp] theorem State.put_draws (bs : List Byte) : (s.put bs).draws = s.draws := rfl
@[simp] theorem State.put_requestIn (bs : List Byte) : (s.put bs).requestIn = s.requestIn := rfl
@[simp] theorem State.put_reg (bs : List Byte) (q : Reg) : (s.put bs).reg q = s.reg q := rfl

/-! ## halt -/

@[simp] theorem State.halt_regs (why : HaltReason) : (s.halt why).regs = s.regs := rfl
@[simp] theorem State.halt_pc (why : HaltReason) : (s.halt why).pc = s.pc := rfl
@[simp] theorem State.halt_cond (why : HaltReason) : (s.halt why).cond = s.cond := rfl
@[simp] theorem State.halt_mem (why : HaltReason) : (s.halt why).mem = s.mem := rfl
@[simp] theorem State.halt_run (why : HaltReason) : (s.halt why).run = .halted why := rfl
@[simp] theorem State.halt_input (why : HaltReason) : (s.halt why).input = s.input := rfl
@[simp] theorem State.halt_output (why : HaltReason) : (s.halt why).output = s.output := rfl
@[simp] theorem State.halt_interruptRequested (why : HaltReason) : (s.halt why).interruptRequested = s.interruptRequested := rfl
@[simp] theorem State.halt_pollAnswers (why : HaltReason) : (s.halt why).pollAnswers = s.pollAnswers := rfl
@[simp] theorem State.halt_draws (why : HaltReason) : (s.halt why).draws = s.draws := rfl
@[simp] theorem State.halt_requestIn (why : HaltReason) : (s.halt why).requestIn = s.requestIn := rfl
@[simp] theorem State.halt_reg (why : HaltReason) (q : Reg) : (s.halt why).reg q = s.reg q := rfl

/-! ## terminate -/

@[simp] theorem State.terminate_regs : (s.terminate).regs = s.regs := rfl
@[simp] theorem State.terminate_pc : (s.terminate).pc = s.pc := rfl
@[simp] theorem State.terminate_cond : (s.terminate).cond = s.cond := rfl
@[simp] theorem State.terminate_mem : (s.terminate).mem = s.mem := rfl
@[simp] theorem State.terminate_run : (s.terminate).run = .halted .interruptRequested := rfl
@[simp] theorem State.terminate_input : (s.terminate).input = s.input := rfl
@[simp] theorem State.terminate_output : (s.terminate).output = s.output := rfl
@[simp] theorem State.terminate_interruptRequested : (s.terminate).interruptRequested = true := rfl
@[simp] theorem State.terminate_pollAnswers : (s.terminate).pollAnswers = s.pollAnswers := rfl
@[simp] theorem State.terminate_draws : (s.terminate).draws = s.draws := rfl
@[simp] theorem State.terminate_requestIn : (s.terminate).requestIn = none := rfl
@[simp] theorem State.terminate_reg (q : Reg) : (s.terminate).reg q = s.reg q := rfl

/-! ## defineReg -/

theorem defineReg_eq (dr : Reg) (v : Word) :
    defineReg dr v s = { s with regs := s.regs.set dr v, cond := condOf v } := by
  simp [defineReg, setcc, State.setCond, State.setReg, State.reg]

@[simp] theorem defineReg_regs (dr : Reg) (v : Word) : (defineReg dr v s).regs = s.regs.set dr v := by
  rw [defineReg_eq]
@[simp] theorem defineReg_pc (dr : Reg) (v : Word) : (defineReg dr v s).pc = s.pc := by
  rw [defineReg_eq]
@[simp] theorem defineReg_cond (dr : Reg) (v : Word) : (defineReg dr v s).cond = condOf v := by
  rw [defineReg_eq]
@[simp] theorem defineReg_mem (dr : Reg) (v : Word) : (defineReg dr v s).mem = s.mem := by
  rw [defineReg_eq]
@[simp] theorem defineReg_run (dr : Reg) (v : Word) : (defineReg dr v s).run = s.run := by
  rw [defineReg_eq]
@[simp] theorem defineReg_input (dr : Reg) (v : Word) : (defineReg dr v s).input = s.input := by
  rw [defineReg_eq]
@[simp] theorem defineReg_output (dr : Reg) (v : Word) : (defineReg dr v s).output = s.output := by
  rw [defineReg_eq]
@[simp] theorem defineReg_interruptRequested (dr : Reg) (v : Word) : (defineReg dr v s).interruptRequested = s.interruptRequested := by
  rw [defineReg_eq]
@[simp] theorem defineReg_pollAnswers (dr : Reg) (v : Word) : (defineReg dr v s).pollAnswers = s.pollAnswers := by
  rw [defineReg_eq]
@[simp] theorem defineReg_draws (dr : Reg) (v : Word) : (defineReg dr v s).draws = s.draws := by
  rw [defineReg_eq]
@[simp] theorem defineReg_requestIn (dr : Reg) (v : Word) : (defineReg dr v s).requestIn = s.requestIn := by
  rw [defineReg_eq]
@[simp] theorem defineReg_reg (dr q : Reg) (v : Word) :
    (defineReg dr v s).reg q = if q = dr then v else s.reg q := by
  rw [defineReg_eq]; exact RegFile.get_set s.regs dr q v

/-! ## hostTurn: only the request and its schedule move -/

@[simp] theorem State.hostTurn_regs : s.hostTurn.regs = s.regs := by
  unfold State.hostTurn; split <;> rfl
@[simp] theorem State.hostTurn_pc : s.hostTurn.pc = s.pc := by
  unfold State.hostTurn; split <;> rfl
@[simp] theorem State.hostTurn_cond : s.hostTurn.cond = s.cond := by
  unfold State.hostTurn; split <;> rfl
@[simp] theorem State.hostTurn_mem : s.hostTurn.mem = s.mem := by
  unfold State.hostTurn; split <;> rfl
@[simp] theorem State.hostTurn_run : s.hostTurn.run = s.run := by
  unfold State.hostTurn; split <;> rfl
@[simp] theorem State.hostTurn_input : s.hostTurn.input = s.input := by
  unfold State.hostTurn; split <;> rfl
@[simp] theorem State.hostTurn_output : s.hostTurn.output = s.output := by
  unfold State.hostTurn; split <;> rfl
@[simp] theorem State.hostTurn_pollAnswers : s.hostTurn.pollAnswers = s.pollAnswers := by
  unfold State.hostTurn; split <;> rfl
@[simp] theorem State.hostTurn_draws : s.hostTurn.draws = s.draws := by
  unfold State.hostTurn; split <;> rfl
@[simp] theorem State.hostTurn_reg (q : Reg) : s.hostTurn.reg q = s.reg q := by
  simp [State.reg]

/-- A request once made stays made. -/
theorem State.hostTurn_interruptRequested_of (h : s.interruptRequested = true) :
    s.hostTurn.interruptRequested = true := by
  unfold State.hostTurn; split <;> simp_all

/-- With no request made and none due the point passes. -/
theorem State.hostTurn_of_noRequestDue (h : s.interruptRequested = false) (hr : s.requestIn ≠ some 0) :
    s.hostTurn.interruptRequested = false := by
  unfold State.hostTurn; split <;> simp_all

/-- With a request made or due the point finds it. -/
theorem State.hostTurn_of_requestDue (h : s.interruptRequested = true ∨ s.requestIn = some 0) :
    s.hostTurn.interruptRequested = true := by
  unfold State.hostTurn; split <;> simp_all

/-- With no request ever to come nothing moves. -/
@[simp] theorem State.hostTurn_of_requestIn_none (h : s.requestIn = none) : s.hostTurn = s := by
  unfold State.hostTurn; rw [h]

/-- What moves in hostTurn, as one record. -/
theorem State.hostTurn_eq : s.hostTurn =
    { s with interruptRequested := s.hostTurn.interruptRequested, requestIn := s.hostTurn.requestIn } := by
  unfold State.hostTurn; split <;> rfl

@[simp] theorem State.hostTurn_setReg (r : Reg) (v : Word) : (s.setReg r v).hostTurn = s.hostTurn.setReg r v := by
  obtain ⟨_, _, _, _, _, _, _, _, _, _, _ | _ | _⟩ := s <;> rfl

@[simp] theorem State.hostTurn_put (bs : List Byte) : (s.put bs).hostTurn = s.hostTurn.put bs := by
  obtain ⟨_, _, _, _, _, _, _, _, _, _, _ | _ | _⟩ := s <;> rfl

@[simp] theorem State.hostTurn_setCond (c : Cond) : (s.setCond c).hostTurn = s.hostTurn.setCond c := by
  obtain ⟨_, _, _, _, _, _, _, _, _, _, _ | _ | _⟩ := s <;> rfl

/-- A schedule that is not due runs out only if there is none. -/
theorem State.hostTurn_requestIn_eq_none (h : s.requestIn ≠ some 0) :
    s.hostTurn.requestIn = none ↔ s.requestIn = none := by
  unfold State.hostTurn; split <;> simp_all

/-! ## trapEntry -/

theorem trapEntry_eq : trapEntry s = s.setReg .r7 s.pc := rfl

end Sys2Proof.Machine
end

