-- ==== Sys2Proof/Laws/Ops.lean ====
section
/-! SUPPORT. What each shared operation over the host and memory can do, said once: waits, polls, console reads,
reads through the Memory Unit, the fetch. -/

namespace Sys2Proof.Machine

variable {s t : State}

/-! ## Sequencing -/

@[simp] theorem Ran.bind_done {α β : Type} (a : α) (s : State) (k : α → State → Ran β) :
    (Ran.done a s).bind k = k a s := rfl
@[simp] theorem Ran.bind_abandoned {α β : Type} (s : State) (k : α → State → Ran β) :
    (Ran.abandoned s : Ran α).bind k = .abandoned s := rfl
@[simp] theorem Ran.bind_stuck {α β : Type} (f : Fault) (k : α → State → Ran β) :
    (Ran.stuck f : Ran α).bind k = .stuck f := rfl
@[simp] theorem Ran.toNext_done {α : Type} (a : α) (s : State) (k : α → State → State) :
    (Ran.done a s).toNext k = .next (k a s) := rfl
@[simp] theorem Ran.toNext_abandoned {α : Type} (s : State) (k : α → State → State) :
    (Ran.abandoned s : Ran α).toNext k = .next s := rfl
@[simp] theorem Ran.toNext_stuck {α : Type} (f : Fault) (k : α → State → State) :
    (Ran.stuck f : Ran α).toNext k = .fault f := rfl

theorem Ran.bind_eq_done {α β : Type} {r : Ran α} {k : α → State → Ran β} {b : β}
    (h : r.bind k = .done b t) : ∃ a u, r = .done a u ∧ k a u = .done b t := by
  cases r with
  | done a u => exact ⟨a, u, rfl, h⟩
  | abandoned u => cases h
  | stuck f => cases h

theorem Ran.bind_eq_abandoned {α β : Type} {r : Ran α} {k : α → State → Ran β}
    (h : r.bind k = .abandoned t) : r = .abandoned t ∨ ∃ a u, r = .done a u ∧ k a u = .abandoned t := by
  cases r with
  | done a u => exact .inr ⟨a, u, rfl, h⟩
  | abandoned u => cases h; exact .inl rfl
  | stuck f => cases h

/-- A cycle part that answers a next state either ended or was abandoned. -/
theorem Ran.toNext_eq_next {α : Type} {r : Ran α} {k : α → State → State} (h : r.toNext k = .next t) :
    (∃ a u, r = .done a u ∧ t = k a u) ∨ r = .abandoned t := by
  cases r with
  | done a u => cases h; exact .inl ⟨a, u, rfl, rfl⟩
  | abandoned u => cases h; exact .inr rfl
  | stuck f => cases h

/-! ## Waits -/

theorem waitPoint_pass (h : s.hostTurn.interruptRequested = false) : waitPoint s = .done () s.hostTurn := by
  simp [waitPoint, h]

theorem waitPoint_stop (h : s.hostTurn.interruptRequested = true) :
    waitPoint s = .abandoned s.hostTurn.terminate := by
  simp [waitPoint, h]

/-- With no request ever to come a wait changes nothing. -/
theorem waitPoint_of_noRequest (h : s.interruptRequested = false) (hr : s.requestIn = none) :
    waitPoint s = .done () s := by
  rw [waitPoint_pass] <;> simp [hr, h]

theorem waitPoint_cases (s : State) :
    (s.hostTurn.interruptRequested = false ∧ waitPoint s = .done () s.hostTurn) ∨
      (s.hostTurn.interruptRequested = true ∧ waitPoint s = .abandoned s.hostTurn.terminate) := by
  cases h : s.hostTurn.interruptRequested
  · exact .inl ⟨rfl, waitPoint_pass h⟩
  · exact .inr ⟨rfl, waitPoint_stop h⟩

/-- The state a request leaves is that of Safety, whatever the schedule. -/
theorem State.terminate_hostTurn (s : State) : s.hostTurn.terminate = s.requestTaken := by
  simp [State.requestTaken, State.terminate, raiseCondition, State.halt]

/-- A request made or due is what keeps a state from being one with none due. -/
theorem State.hostTurn_of_not_noRequestDue (h : ¬s.noRequestDue) : s.hostTurn.interruptRequested = true := by
  apply s.hostTurn_of_requestDue
  by_contra hc
  simp only [not_or, Bool.not_eq_true] at hc
  exact h hc

theorem State.noRequest.due (h : s.noRequest) : s.noRequestDue := ⟨h.1, by simp [h.2]⟩

/-! ## What a poll, a console read or a walk may have done -/

/-- Registers, pc and COND stand; memory stands outside the keyboard cells and stays canonical; output only grows,
input is only taken from, and a request is never cleared. -/
structure HostFrame (s t : State) : Prop where
  regs : t.regs = s.regs
  pc : t.pc = s.pc
  cond : t.cond = s.cond
  bytes : ∀ k, ¬isKeyboardByte k → t.mem.readByte k = s.mem.readByte k
  wf : s.mem.wf → t.mem.wf
  output : s.output <+: t.output
  input : t.input <:+ s.input
  request : s.interruptRequested = true → t.interruptRequested = true

theorem HostFrame.refl (s : State) : HostFrame s s :=
  ⟨rfl, rfl, rfl, fun _ _ => rfl, id, List.prefix_refl _, List.suffix_refl _, id⟩

theorem HostFrame.trans {s t u : State} (h : HostFrame s t) (k : HostFrame t u) : HostFrame s u where
  regs := k.regs.trans h.regs
  pc := k.pc.trans h.pc
  cond := k.cond.trans h.cond
  bytes b hb := (k.bytes b hb).trans (h.bytes b hb)
  wf := k.wf ∘ h.wf
  output := h.output.trans k.output
  input := k.input.trans h.input
  request := k.request ∘ h.request

theorem HostFrame.hostTurn (s : State) : HostFrame s s.hostTurn where
  regs := s.hostTurn_regs
  pc := s.hostTurn_pc
  cond := s.hostTurn_cond
  bytes _ _ := by rw [s.hostTurn_mem]
  wf h := by rw [s.hostTurn_mem]; exact h
  output := by rw [s.hostTurn_output]
  input := by rw [s.hostTurn_input]
  request := s.hostTurn_interruptRequested_of

theorem HostFrame.terminate (s : State) : HostFrame s s.terminate :=
  ⟨rfl, rfl, rfl, fun _ _ => rfl, id, List.prefix_refl _, List.suffix_refl _, fun _ => rfl⟩

theorem HostFrame.put (s : State) (bs : List Byte) : HostFrame s (s.put bs) :=
  ⟨rfl, rfl, rfl, fun _ _ => rfl, id, List.prefix_append _ _, List.suffix_refl _, id⟩

/-! ## The poll -/

theorem State.pollAnswer_snd (s : State) : ∃ l n, s.pollAnswer.2 = { s with pollAnswers := l, draws := n } := by
  unfold State.pollAnswer
  split
  · exact ⟨_, _, rfl⟩
  · exact ⟨_, _, rfl⟩

/-- A poll takes at most the next character, and moves nothing else but the host's answers. -/
theorem State.pollResult_cases (s : State) : ∃ l n,
    (s.pollResult = (none, { s with pollAnswers := l, draws := n })) ∨
      ∃ c rest, s.input = c :: rest ∧
        s.pollResult = (some c, { s with pollAnswers := l, draws := n, input := rest }) := by
  obtain ⟨l, n, h⟩ := s.pollAnswer_snd
  refine ⟨l, n, ?_⟩
  rcases hp : s.pollAnswer with ⟨b, u⟩
  rw [hp] at h
  simp only at h
  subst h
  unfold State.pollResult
  rw [hp]
  cases hi : s.input with
  | nil => simp
  | cons c rest => cases b <;> simp

/-- On an exhausted input a poll finds no key. -/
theorem State.pollResult_of_input_nil (h : s.input = []) : s.pollResult.1 = none := by
  obtain ⟨l, n, h' | ⟨c, rest, hi, h'⟩⟩ := s.pollResult_cases
  · rw [h']
  · rw [h] at hi; cases hi

theorem consolePoll_pass (h : s.hostTurn.interruptRequested = false) :
    consolePoll s = .done s.hostTurn.pollResult.1 s.hostTurn.pollResult.2 := by
  simp [consolePoll, waitPoint_pass h]

theorem consolePoll_stop (h : s.hostTurn.interruptRequested = true) :
    consolePoll s = .abandoned s.hostTurn.terminate := by
  simp [consolePoll, waitPoint_stop h]

/-! ## Reads through the Memory Unit -/

/-- What a read of KBSR returns: 0x8000 with a key, 0 without (20_memory.md R46). -/
def keyWord (key : Option Byte) : Word := if key.isSome then 0x8000 else 0

theorem latchKey_peek_kbsr (key : Option Byte) (s : State) : (latchKey key s).mem.peek kbsr = keyWord key := by
  cases key with
  | none => simp [latchKey, keyWord]
  | some c => simp [latchKey, keyWord, kbsr, kbdr]

theorem latchKey_peek_kbdr (key : Option Byte) (s : State) :
    (latchKey key s).mem.peek kbdr = key.elim (s.mem.peek kbdr) (fun c => c.zeroExtend 16) := by
  cases key with
  | none => simp [latchKey, kbsr, kbdr]
  | some c => simp [latchKey]

theorem latchKey_readByte (key : Option Byte) (s : State) {k : Nat} (hk : ¬isKeyboardByte k) :
    (latchKey key s).mem.readByte k = s.mem.readByte k := by
  simp only [isKeyboardByte, not_or] at hk
  cases key <;> simp [latchKey, Memory.readByte_poke, hk]

theorem latchKey_wf (key : Option Byte) (h : s.mem.wf) : (latchKey key s).mem.wf := by
  cases key with
  | none => simp only [latchKey, State.memWrite_mem]; exact Memory.wf_poke h _ _
  | some c => simp only [latchKey, State.memWrite_mem]; exact Memory.wf_poke (Memory.wf_poke h _ _) _ _

theorem HostFrame.latchKey (key : Option Byte) (s : State) : HostFrame s (latchKey key s) where
  regs := by cases key <;> rfl
  pc := by cases key <;> rfl
  cond := by cases key <;> rfl
  bytes _ hk := latchKey_readByte key s hk
  wf := latchKey_wf key
  output := by cases key <;> exact List.prefix_refl _
  input := by cases key <;> exact List.suffix_refl _
  request h := by cases key <;> exact h

@[simp] theorem latchKey_run (key : Option Byte) (s : State) : (latchKey key s).run = s.run := by
  cases key <;> rfl

theorem HostFrame.pollResult (s : State) : HostFrame s s.pollResult.2 := by
  obtain ⟨l, n, h | ⟨c, rest, hi, h⟩⟩ := s.pollResult_cases
  · rw [h]; exact ⟨rfl, rfl, rfl, fun _ _ => rfl, id, List.prefix_refl _, List.suffix_refl _, id⟩
  · rw [h]
    refine ⟨rfl, rfl, rfl, fun _ _ => rfl, id, List.prefix_refl _, ?_, id⟩
    rw [hi]; exact List.suffix_cons _ _

@[simp] theorem State.pollResult_run (s : State) : s.pollResult.2.run = s.run := by
  obtain ⟨l, n, h | ⟨c, rest, hi, h⟩⟩ := s.pollResult_cases <;> rw [h]

/-- Any other address than KBSR is a pure lookup (R41). -/
theorem memRead_of_ne {a : Word} (h : a ≠ kbsr) (s : State) : memRead a s = .done (s.mem.peek a) s := by
  simp [memRead, h]

/-- A read of KBSR that the host answers (R43, R46). -/
theorem memRead_kbsr_pass (h : s.hostTurn.interruptRequested = false) :
    memRead kbsr s =
      .done (keyWord s.hostTurn.pollResult.1) (latchKey s.hostTurn.pollResult.1 s.hostTurn.pollResult.2) := by
  simp [memRead, kbsrPoll, consolePoll_pass h, latchKey_peek_kbsr]

/-- A read of KBSR that the termination request abandons (60_exceptions.md R155). -/
theorem memRead_kbsr_stop (h : s.hostTurn.interruptRequested = true) :
    memRead kbsr s = .abandoned s.hostTurn.terminate := by
  simp [memRead, kbsrPoll, consolePoll_stop h]

/-- The same, in the terms of Safety. -/
theorem memRead_kbsr_of_noRequestDue (h : s.noRequestDue) : memRead kbsr s = .done s.polledWord s.afterPoll :=
  memRead_kbsr_pass (s.hostTurn_of_noRequestDue h.1 h.2)

theorem memRead_kbsr_of_requestDue (h : ¬s.noRequestDue) : memRead kbsr s = .abandoned s.requestTaken := by
  rw [memRead_kbsr_stop (State.hostTurn_of_not_noRequestDue h), State.terminate_hostTurn]

theorem HostFrame.afterPoll (s : State) : HostFrame s s.afterPoll :=
  (HostFrame.hostTurn s).trans ((HostFrame.pollResult _).trans (HostFrame.latchKey _ _))

@[simp] theorem State.afterPoll_regs (s : State) : s.afterPoll.regs = s.regs := (HostFrame.afterPoll s).regs
@[simp] theorem State.afterPoll_reg (s : State) (r : Reg) : s.afterPoll.reg r = s.reg r := by
  simp [State.reg]
@[simp] theorem State.afterPoll_pc (s : State) : s.afterPoll.pc = s.pc := (HostFrame.afterPoll s).pc
@[simp] theorem State.afterPoll_cond (s : State) : s.afterPoll.cond = s.cond := (HostFrame.afterPoll s).cond
@[simp] theorem State.afterPoll_run (s : State) : s.afterPoll.run = s.run := by
  simp [State.afterPoll]

/-- A polled word is never an address that polls. -/
theorem State.polledWord_ne_kbsr (s : State) : s.polledWord ≠ kbsr := by
  unfold State.polledWord; split <;> decide

theorem memRead_done_frame {a w : Word} (h : memRead a s = .done w t) : HostFrame s t ∧ t.run = s.run := by
  by_cases ha : a = kbsr
  · subst ha
    cases hq : s.hostTurn.interruptRequested with
    | true => rw [memRead_kbsr_stop hq] at h; cases h
    | false =>
      rw [memRead_kbsr_pass hq] at h
      cases h
      exact ⟨(HostFrame.hostTurn s).trans ((HostFrame.pollResult _).trans (HostFrame.latchKey _ _)), by simp⟩
  · rw [memRead_of_ne ha] at h
    cases h
    exact ⟨HostFrame.refl s, rfl⟩

/-- A read is abandoned only in the poll of KBSR, with nothing but the host's request and the halt to show for it. -/
theorem memRead_abandoned {a : Word} (h : memRead a s = .abandoned t) :
    a = kbsr ∧ s.hostTurn.interruptRequested = true ∧ t = s.hostTurn.terminate := by
  by_cases ha : a = kbsr
  · subst ha
    cases hq : s.hostTurn.interruptRequested with
    | true => rw [memRead_kbsr_stop hq] at h; cases h; exact ⟨rfl, rfl, rfl⟩
    | false => rw [memRead_kbsr_pass hq] at h; cases h
  · rw [memRead_of_ne ha] at h; cases h

/-- A read through the Memory Unit always ends. -/
theorem memRead_ne_stuck (a : Word) (s : State) (f : Fault) : memRead a s ≠ .stuck f := by
  by_cases ha : a = kbsr
  · subst ha
    cases hq : s.hostTurn.interruptRequested with
    | true => rw [memRead_kbsr_stop hq]; simp
    | false => rw [memRead_kbsr_pass hq]; simp
  · rw [memRead_of_ne ha]; simp

/-! ## The fetch -/

theorem fetch_of_ne (h : s.pc ≠ kbsr) : fetch s = .done (s.mem.peek s.pc) (s.setPc (s.pc + 1)) := by
  simp [fetch, memRead_of_ne h]

theorem fetch_done {w : Word} (h : fetch s = .done w t) :
    ∃ u, memRead s.pc s = .done w u ∧ t = u.setPc (s.pc + 1) := by
  obtain ⟨a, u, h1, h2⟩ := Ran.bind_eq_done h
  cases h2
  exact ⟨u, h1, rfl⟩

/-! ## Console reads -/

/-- A console read that finds a character (10_state.md R30). -/
theorem consoleGet_char {eof : Option Word} {c : Byte} {rest : List Byte}
    (h : s.hostTurn.interruptRequested = false) (hi : s.input = c :: rest) :
    consoleGet eof s = .done (c.zeroExtend 16) { s.hostTurn with input := rest } := by
  simp [consoleGet, waitPoint_pass h, hi]

theorem consoleGet_stop {eof : Option Word} (h : s.hostTurn.interruptRequested = true) :
    consoleGet eof s = .abandoned s.hostTurn.terminate := by
  simp [consoleGet, waitPoint_stop h]

theorem consoleGet_eof {w : Word} (h : s.hostTurn.interruptRequested = false) (hi : s.input = []) :
    consoleGet (some w) s = .done w s.hostTurn := by
  simp [consoleGet, waitPoint_pass h, hi]

theorem consoleGet_blocked (h : s.hostTurn.interruptRequested = false) (hi : s.input = []) :
    consoleGet none s =
      if s.hostTurn.requestIn.isSome then .abandoned s.hostTurn.terminate
      else .stuck (.consoleReadBlocked s.hostTurn) := by
  cases hr : s.hostTurn.requestIn <;> simp [consoleGet, waitPoint_pass h, hi, hr]

/-- What a console read that ends has done: at most one character taken. -/
theorem consoleGet_done_frame {eof : Option Word} {w : Word} (h : consoleGet eof s = .done w t) :
    HostFrame s t ∧ t.run = s.run ∧ t.mem = s.mem ∧ t.output = s.output := by
  cases hq : s.hostTurn.interruptRequested with
  | true => rw [consoleGet_stop hq] at h; cases h
  | false =>
    cases hi : s.input with
    | cons c rest =>
      rw [consoleGet_char hq hi] at h
      cases h
      refine ⟨⟨by simp, by simp, by simp, by simp, by simp, by simp, ?_, ?_⟩, by simp, by simp, by simp⟩
      · rw [hi]; exact List.suffix_cons _ _
      · intro hr; exact s.hostTurn_interruptRequested_of hr
    | nil =>
      cases eof with
      | some v =>
        rw [consoleGet_eof hq hi] at h
        cases h
        exact ⟨HostFrame.hostTurn s, by simp, by simp, by simp⟩
      | none =>
        rw [consoleGet_blocked hq hi] at h
        split at h <;> cases h

theorem consoleGet_abandoned {eof : Option Word} (h : consoleGet eof s = .abandoned t) :
    t = s.hostTurn.terminate := by
  cases hq : s.hostTurn.interruptRequested with
  | true => rw [consoleGet_stop hq] at h; cases h; rfl
  | false =>
    cases hi : s.input with
    | cons c rest => rw [consoleGet_char hq hi] at h; cases h
    | nil =>
      cases eof with
      | some v => rw [consoleGet_eof hq hi] at h; cases h
      | none =>
        rw [consoleGet_blocked hq hi] at h
        split at h <;> cases h
        rfl

end Sys2Proof.Machine
end

