-- ==== Sys2Proof/Laws/Step.lean ====
section
/-! SUPPORT. What a string walk and a cycle can do, said once. -/

namespace Sys2Proof.Machine

variable {s t : State}

/-! ## String walks -/

/-- In plain mode every cell is looked up with no side effect. -/
theorem readCell_plain (a : Word) (s : State) : readCell .plain a s = .done (s.mem.peek a) s := by
  simp [readCell]

/-- In polling mode every cell is read through the Memory Unit. -/
theorem readCell_polling (a : Word) (s : State) : readCell .polling a s = memRead a s := by
  by_cases h : a = kbsr
  · simp [readCell, h]
  · simp [readCell, h, memRead_of_ne h]

theorem readCell_done_frame {mode : StringReadMode} {a w : Word} (h : readCell mode a s = .done w t) :
    HostFrame s t ∧ t.run = s.run ∧ (mode = .plain → t = s ∧ w = s.mem.peek a) := by
  cases mode with
  | plain => rw [readCell_plain] at h; cases h; exact ⟨HostFrame.refl s, rfl, fun _ => ⟨rfl, rfl⟩⟩
  | polling =>
    rw [readCell_polling] at h
    exact ⟨(memRead_done_frame h).1, (memRead_done_frame h).2, fun e => by cases e⟩

theorem readCell_abandoned {mode : StringReadMode} {a : Word} (h : readCell mode a s = .abandoned t) :
    mode = .polling ∧ t = s.hostTurn.terminate := by
  cases mode with
  | plain => rw [readCell_plain] at h; cases h
  | polling => rw [readCell_polling] at h; exact ⟨rfl, (memRead_abandoned h).2.2⟩

/-- A cell that is not KBSR, or any cell in plain mode, is looked up. -/
theorem readCell_lookup {mode : StringReadMode} {a : Word} (h : mode = .plain ∨ a ≠ kbsr) (s : State) :
    readCell mode a s = .done (s.mem.peek a) s := by
  rcases h with rfl | h
  · exact readCell_plain a s
  · simp [readCell, h]

/-- With no request to come, the bytes of a cell are all put. -/
theorem putEach_of_noRequest (bs : List Byte) {s : State} (hq : s.interruptRequested = false) (hr : s.requestIn = none) :
    putEach bs s = .done () (s.put bs) := by
  induction bs generalizing s with
  | nil => simp [putEach, State.put]
  | cons b rest ih =>
    rw [putEach, waitPoint_of_noRequest hq hr, Ran.bind_done, ih (s := s.put [b]) hq hr]
    simp [State.put]

/-- With a request scheduled, the bytes put are those before the point at which it comes, or all of them. -/
theorem putEach_of_request (bs : List Byte) {k : Nat} {s : State} (hq : s.interruptRequested = false) :
    putEach bs { s with requestIn := some k } =
      if k < bs.length then .abandoned (s.put (bs.take k)).requestTaken
      else .done () { s.put bs with requestIn := some (k - bs.length) } := by
  induction bs generalizing s k with
  | nil => simp [putEach, State.put]
  | cons b rest ih =>
    cases k with
    | zero => simp [putEach, waitPoint_stop (s := { s with requestIn := some 0 }) rfl, State.terminate_hostTurn, State.put,
        State.requestTaken]
    | succ k =>
      rw [putEach, waitPoint_pass (s := { s with requestIn := some (k + 1) }) hq, Ran.bind_done]
      refine (ih (s := s.put [b]) (k := k) hq).trans ?_
      simp [State.put]

/-- What the puts of a cell have done when none was abandoned. -/
theorem putEach_done_frame {bs : List Byte} {s : State} (h : putEach bs s = .done () t) :
    HostFrame s t ∧ t.run = s.run ∧ t.mem = s.mem := by
  induction bs generalizing s with
  | nil => cases h; exact ⟨HostFrame.refl _, rfl, rfl⟩
  | cons b rest ih =>
    rcases waitPoint_cases s with ⟨-, hw⟩ | ⟨-, hw⟩ <;> rw [putEach, hw] at h
    · obtain ⟨g1, g2, g3⟩ := ih h
      exact ⟨(HostFrame.hostTurn s).trans ((HostFrame.put _ _).trans g1), by simp [g2], by simp [g3]⟩
    · cases h

/-- What the puts of a cell that the request abandons have done. -/
theorem putEach_abandoned_frame {bs : List Byte} {s : State} (h : putEach bs s = .abandoned t) :
    HostFrame s t ∧ t.run = .halted .interruptRequested ∧ t.interruptRequested = true ∧ t.mem = s.mem := by
  induction bs generalizing s with
  | nil => cases h
  | cons b rest ih =>
    rcases waitPoint_cases s with ⟨-, hw⟩ | ⟨-, hw⟩ <;> rw [putEach, hw] at h
    · obtain ⟨g1, g2, g3, g4⟩ := ih h
      exact ⟨(HostFrame.hostTurn s).trans ((HostFrame.put _ _).trans g1), g2, g3, by simp [g4]⟩
    · cases h
      exact ⟨(HostFrame.hostTurn s).trans (HostFrame.terminate _), rfl, rfl, by simp⟩

theorem putEach_ne_stuck (bs : List Byte) (s : State) (f : Fault) : putEach bs s ≠ .stuck f := by
  induction bs generalizing s with
  | nil => exact fun h => by cases h
  | cons b rest ih =>
    rcases waitPoint_cases s with ⟨-, hw⟩ | ⟨-, hw⟩ <;> rw [putEach, hw]
    · exact ih _
    · exact fun h => by cases h

/-- One cell of a walk with no request to come: the end of the string. -/
theorem stringWalk_end {mode : StringReadMode} {emit : Word → List Byte} {n : Nat} {a : Word}
    (hq : s.interruptRequested = false) (hr : s.requestIn = none) (hm : mode = .plain ∨ a ≠ kbsr)
    (hz : s.mem.peek a = 0) : stringWalk mode emit (n + 1) a s = .done () s := by
  simp [stringWalk, waitPoint_of_noRequest hq hr, readCell_lookup hm, hz]

/-- One cell of a walk with no request to come: a character cell. -/
theorem stringWalk_cell {mode : StringReadMode} {emit : Word → List Byte} {n : Nat} {a : Word}
    (hq : s.interruptRequested = false) (hr : s.requestIn = none) (hm : mode = .plain ∨ a ≠ kbsr)
    (hz : s.mem.peek a ≠ 0) :
    stringWalk mode emit (n + 1) a s = stringWalk mode emit n (a + 1) (s.put (emit (s.mem.peek a))) := by
  simp only [stringWalk, waitPoint_of_noRequest hq hr, readCell_lookup hm, Ran.bind_done, if_neg hz,
    putEach_of_noRequest _ hq hr]

/-- A walk over `n` character cells and then a zero word, no request to come, writes the cells in order. -/
theorem stringWalk_string {mode : StringReadMode} {emit : Word → List Byte} (n : Nat) {bound : Nat} {a : Word}
    {s : State} (hb : n < bound) (hq : s.interruptRequested = false) (hr : s.requestIn = none)
    (hm : mode = .plain ∨ ∀ i, i ≤ n → a + BitVec.ofNat 16 i ≠ kbsr)
    (hc : ∀ i, i < n → s.mem.peek (a + BitVec.ofNat 16 i) ≠ 0) (hz : s.mem.peek (a + BitVec.ofNat 16 n) = 0) :
    stringWalk mode emit bound a s = .done ()
      (s.put ((List.range n).flatMap fun i => emit (s.mem.peek (a + BitVec.ofNat 16 i)))) := by
  induction n generalizing a s bound with
  | zero =>
    obtain ⟨b, rfl⟩ : ∃ b, bound = b + 1 := ⟨bound - 1, by omega⟩
    have hm' : mode = .plain ∨ a ≠ kbsr := hm.imp_right fun h => by simpa using h 0 (le_refl _)
    rw [stringWalk_end hq hr hm' (by simpa using hz)]
    simp [State.put]
  | succ n ih =>
    obtain ⟨b, rfl⟩ : ∃ b, bound = b + 1 := ⟨bound - 1, by omega⟩
    have hm' : mode = .plain ∨ a ≠ kbsr := hm.imp_right fun h => by simpa using h 0 (Nat.zero_le _)
    have e : ∀ i, a + 1 + BitVec.ofNat 16 i = a + BitVec.ofNat 16 (i + 1) := by
      intro i
      rw [show i + 1 = 1 + i by omega, ← BitVec.ofNat_add_ofNat, BitVec.add_assoc]
      rfl
    rw [stringWalk_cell hq hr hm' (by simpa using hc 0 (Nat.zero_lt_succ _)),
      ih (a := a + 1) (s := s.put _) (bound := b) (by omega) hq hr
        (hm.imp_right fun h i hi => by rw [e]; exact h (i + 1) (by omega))
        (fun i hi => by rw [e]; exact hc (i + 1) (by omega)) (by rw [e]; exact hz)]
    simp only [State.put, List.append_assoc, List.range_succ_eq_map, List.flatMap_cons, List.flatMap_map, e]
    simp

/-- What a walk that ends has done. -/
theorem stringWalk_done_frame {mode : StringReadMode} {emit : Word → List Byte} {n : Nat} {a : Word} {s : State}
    (h : stringWalk mode emit n a s = .done () t) :
    HostFrame s t ∧ t.run = s.run ∧ (mode = .plain → t.mem = s.mem) := by
  induction n generalizing a s with
  | zero => simp [stringWalk] at h
  | succ n ih =>
    rcases waitPoint_cases s with ⟨-, hw⟩ | ⟨-, hw⟩
    · simp only [stringWalk, hw, Ran.bind_done] at h
      obtain ⟨w, u, hr, h⟩ := Ran.bind_eq_done h
      have hf := readCell_done_frame hr
      have h0 := (HostFrame.hostTurn s).trans hf.1
      split at h
      · cases h
        exact ⟨h0, by simp [hf.2.1], fun e => by rw [(hf.2.2 e).1]; simp⟩
      · obtain ⟨_, v, hp, h⟩ := Ran.bind_eq_done h
        obtain ⟨p1, p2, p3⟩ := putEach_done_frame hp
        obtain ⟨g1, g2, g3⟩ := ih h
        refine ⟨h0.trans (p1.trans g1), by simp [g2, p2, hf.2.1], fun e => ?_⟩
        rw [g3 e, p3, (hf.2.2 e).1, State.hostTurn_mem]
    · simp [stringWalk, hw] at h

/-- What a walk that the request abandons has done. -/
theorem stringWalk_abandoned_frame {mode : StringReadMode} {emit : Word → List Byte} {n : Nat} {a : Word} {s : State}
    (h : stringWalk mode emit n a s = .abandoned t) :
    HostFrame s t ∧ t.run = .halted .interruptRequested ∧ t.interruptRequested = true ∧
      (mode = .plain → t.mem = s.mem) := by
  induction n generalizing a s with
  | zero => simp [stringWalk] at h
  | succ n ih =>
    rcases waitPoint_cases s with ⟨-, hw⟩ | ⟨-, hw⟩
    · simp only [stringWalk, hw, Ran.bind_done] at h
      rcases Ran.bind_eq_abandoned h with hr | ⟨w, u, hr, h⟩
      · obtain ⟨rfl, rfl⟩ := readCell_abandoned hr
        exact ⟨(HostFrame.hostTurn s).trans ((HostFrame.hostTurn _).trans (HostFrame.terminate _)), rfl, rfl,
          fun e => by cases e⟩
      · have hf := readCell_done_frame hr
        split at h
        · cases h
        · rcases Ran.bind_eq_abandoned h with hp | ⟨_, v, hp, h⟩
          · obtain ⟨g1, g2, g3, g4⟩ := putEach_abandoned_frame hp
            exact ⟨(HostFrame.hostTurn s).trans (hf.1.trans g1), g2, g3,
              fun e => by rw [g4, (hf.2.2 e).1, State.hostTurn_mem]⟩
          · obtain ⟨p1, -, p3⟩ := putEach_done_frame hp
            obtain ⟨g1, g2, g3, g4⟩ := ih h
            refine ⟨(HostFrame.hostTurn s).trans (hf.1.trans (p1.trans g1)), g2, g3, fun e => ?_⟩
            rw [g4 e, p3, (hf.2.2 e).1, State.hostTurn_mem]
    · simp only [stringWalk, hw, Ran.bind_abandoned] at h
      cases h
      exact ⟨(HostFrame.hostTurn s).trans (HostFrame.terminate _), rfl, rfl, fun _ => by simp⟩

/-! ## A cycle -/

/-- The three ways a cycle answers a next state: the request is taken before the fetch, the fetch is abandoned in its
poll, or an instruction is executed. -/
theorem step_cases (h : step s = .next t) :
    s.run = .running ∧
      ((s.hostTurn.interruptRequested = true ∧ t = s.hostTurn.terminate) ∨
        (s.hostTurn.interruptRequested = false ∧
          (fetch s.hostTurn = .abandoned t ∨
            ∃ w u, fetch s.hostTurn = .done w u ∧ exec (decode w) u = .next t))) := by
  unfold step at h
  split at h
  · cases h
  · rename_i hrun
    refine ⟨hrun, ?_⟩
    rcases waitPoint_cases s with ⟨hq, hw⟩ | ⟨hq, hw⟩
    · right
      refine ⟨hq, ?_⟩
      rw [hw] at h
      simp only at h
      split at h
      · next u hf => cases h; exact .inl hf
      · cases h
      · next w u hf => exact .inr ⟨w, u, hf, h⟩
    · left
      rw [hw] at h
      cases h
      exact ⟨hq, rfl⟩

/-- A cycle that no request stops, away from KBSR. -/
theorem step_exec (hrun : s.run = .running) (hq : s.hostTurn.interruptRequested = false) (hp : s.pc ≠ kbsr) :
    step s = exec (decode (s.mem.peek s.pc)) (s.hostTurn.setPc (s.pc + 1)) := by
  have hf : fetch s.hostTurn = .done (s.mem.peek s.pc) (s.hostTurn.setPc (s.pc + 1)) := by
    rw [fetch_of_ne (by simpa using hp)]; simp
  unfold step
  rw [hrun, waitPoint_pass hq]
  simp only [hf]

/-- A HALTED engine makes no step (10_state.md R27). -/
theorem step_halted {why : HaltReason} (h : s.run = .halted why) : step s = .fault .engineHalted := by
  unfold step; rw [h]

end Sys2Proof.Machine
end

