-- ==== Sys2Proof/Tests/Slice0.lean ====
section
/-! SUPPORT. Tests of the model, and the witnesses of the obligations' hypotheses. Every expected value is from
spec/95_test_vectors.md (the vector is named) or from a rule's own words. -/

namespace Sys2Proof.Tests

open Sys2Proof Sys2Proof.Machine

/-! ## Helpers -/

/-- Memory with these words stored, all else as at reset. -/
def cells (l : List (Word × Word)) : Memory := l.foldl (fun m c => m.poke c.1 c.2) []

/-- The reset state with pc at an address and these words in memory. -/
def start (pc : Word) (l : List (Word × Word)) : State := { State.reset with pc := pc, mem := cells l }

/-- The reset state with one instruction word at 0x3000. -/
def one (w : Word) : State := start 0x3000 [(0x3000, w)]

/-- Whether an outcome is a next state of which something holds. -/
def after (o : Outcome) (p : State → Bool) : Bool :=
  match o with
  | .next t => p t
  | .fault _ => false
  | .refused _ => false

theorem exists_next {o : Outcome} {p : State → Bool} (h : after o p = true) : ∃ t, o = .next t ∧ p t = true := by
  cases o with
  | next t => exact ⟨t, rfl, h⟩
  | fault f => cases h
  | refused r => cases h

/-- Parameters with a prompt and a notice of one byte each. -/
def params (mode : StringReadMode) (eof : Option Word) : Params := ⟨[0x3F], [0x2E], mode, eof⟩

/-! ## Well-formed instructions -/

theorem test_wellFormed_refuses_res : (Instr.res 0x1225).wellFormed = false := by decide
theorem test_wellFormed_res : (Instr.res 0xD123).wellFormed = true := by decide

/-! ## Decoding: words written bit by bit from the format tables of 30_encoding.md R63 -/

theorem test_decode_br : decode 0b0000_110_000000001#16 = .br true true false 1 := by decide
theorem test_decode_addReg : decode 0b0001_010_000_0_11_001#16 = .addReg .r2 .r0 .r1 := by decide
theorem test_decode_addImm : decode 0b0001_001_000_1_00101#16 = .addImm .r1 .r0 5 := by decide
theorem test_decode_ld : decode 0b0010_010_111111111#16 = .ld .r2 0x1FF := by decide
theorem test_decode_st : decode 0b0011_011_000000100#16 = .st .r3 4 := by decide
theorem test_decode_jsr : decode 0b0100_1_10000000000#16 = .jsr 0x400 := by decide
theorem test_decode_jsrr : decode 0b0100_0_11_111_111111#16 = .jsrr .r7 := by decide
theorem test_decode_andReg : decode 0b0101_010_000_0_00_001#16 = .andReg .r2 .r0 .r1 := by decide
theorem test_decode_andImm : decode 0b0101_001_001_1_10000#16 = .andImm .r1 .r1 0x10 := by decide
theorem test_decode_ldr : decode 0b0110_001_010_111111#16 = .ldr .r1 .r2 0x3F := by decide
theorem test_decode_str : decode 0b0111_000_110_000000#16 = .str .r0 .r6 0 := by decide
theorem test_decode_rti : decode 0b1000_111111111111#16 = .rti := by decide
theorem test_decode_not : decode 0b1001_001_000_111111#16 = .not .r1 .r0 := by decide
theorem test_decode_ldi : decode 0b1010_001_000000001#16 = .ldi .r1 1 := by decide
theorem test_decode_sti : decode 0b1011_001_000000001#16 = .sti .r1 1 := by decide
theorem test_decode_jmp : decode 0b1100_111_011_111111#16 = .jmp .r3 := by decide
theorem test_decode_res : decode 0b1101_000100100011#16 = .res 0xD123 := by decide
theorem test_decode_lea : decode 0b1110_000_000010000#16 = .lea .r0 0x010 := by decide
theorem test_decode_trap : decode 0b1111_1111_00100101#16 = .trap 0x25 := by decide

/-- The encoder gives the spec's canonical words (R70; L1-7, L2-A15, L2-C19, L2-T18). -/
theorem test_encode :
    encode (.addImm .r1 .r0 5) = 0x1225 ∧ encode (.not .r1 .r0) = 0x923F ∧ encode (.jmp .r7) = 0xC1C0 ∧
      encode (.trap 0x25) = 0xF025 := by decide

/-- opcode_table.json numbers a word's bits as the word's own. -/
theorem test_decodeTableWord :
    decodeTableWord 16 0x1225 = some (.addImm .r1 .r0 5) ∧ decodeTableWord 16 0x4805 = some (.jsr 5) := by decide

/-! ## One step of each instruction -/

/-- L1-9. -/
theorem test_br_not_taken : after (step { one 0x0401 with cond := .pos }) (fun t => t.pc = 0x3001 ∧ t.cond = .pos) := by
  decide
/-- L2-C7. -/
theorem test_br_wraps : after (step (start 0xFFF0 [(0xFFF0, 0x0EFF)])) (fun t => t.pc = 0x00F0) := by decide

/-- L2-A2. -/
theorem test_addReg_overflow :
    after (step ((one 0x1401).setReg .r0 0x7FFF |>.setReg .r1 1))
      (fun t => t.reg .r2 = 0x8000 ∧ t.cond = .neg ∧ t.pc = 0x3001) := by decide
/-- L2-A3. -/
theorem test_addReg_carry :
    after (step ((one 0x1401).setReg .r0 0xFFFF |>.setReg .r1 1)) (fun t => t.reg .r2 = 0 ∧ t.cond = .zero) := by decide
/-- L2-A7. -/
theorem test_addImm_smallest :
    after (step ((one 0x1230).setReg .r0 0x0010)) (fun t => t.reg .r1 = 0 ∧ t.cond = .zero) := by decide
/-- L2-A6. -/
theorem test_addImm_largest :
    after (step ((one 0x122F).setReg .r0 1)) (fun t => t.reg .r1 = 0x0010 ∧ t.cond = .pos) := by decide

/-- L2-LS2. -/
theorem test_ld_own_word : after (step (one 0x25FF)) (fun t => t.reg .r2 = 0x25FF ∧ t.cond = .pos) := by decide
/-- L2-LS5. -/
theorem test_ld_polls :
    after (step { start 0xFDFF [(0xFDFF, 0x2000)] with input := [0x78], pollAnswers := [true] })
      (fun t => t.reg .r0 = 0x8000 ∧ t.mem.peek 0xFE00 = 0x8000 ∧ t.mem.peek 0xFE02 = 0x0078 ∧ t.pc = 0xFE00 ∧
        t.cond = .neg ∧ t.input = []) := by decide

/-- L2-LS8. -/
theorem test_st_over_itself :
    after (step ((one 0x37FF).setReg .r3 0x1234)) (fun t => t.mem.peek 0x3000 = 0x1234 ∧ t.pc = 0x3001) := by decide
/-- L2-LS6. -/
theorem test_st :
    after (step ((one 0x3604).setReg .r3 0x1234)) (fun t => t.mem.peek 0x3005 = 0x1234 ∧ t.cond = .zero) := by decide

/-- L2-C12. -/
theorem test_jsr_back :
    after (step (one 0x4C00)) (fun t => t.reg .r7 = 0x3001 ∧ t.pc = 0x2C01) := by decide
/-- L2-C14. -/
theorem test_jsr_top :
    after (step (start 0xFFFF [(0xFFFF, 0x4BFF)])) (fun t => t.reg .r7 = 0 ∧ t.pc = 0x03FF) := by decide
/-- L2-C16, decision D14. -/
theorem test_jsrr_r7 :
    after (step ((one 0x41C0).setReg .r7 0x5000)) (fun t => t.reg .r7 = 0x3001 ∧ t.pc = 0x3001) := by decide
/-- L2-C15. -/
theorem test_jsrr :
    after (step ((one 0x4080).setReg .r2 0x4000)) (fun t => t.reg .r7 = 0x3001 ∧ t.pc = 0x4000) := by decide

/-- L2-A10. -/
theorem test_andReg :
    after (step ((one 0x5401).setReg .r0 0x00F0 |>.setReg .r1 0x0FF0)) (fun t => t.reg .r2 = 0x00F0 ∧ t.cond = .pos) := by
  decide
/-- L2-A14. -/
theorem test_andReg_same :
    after (step ((one 0x5241).setReg .r1 0x8001)) (fun t => t.reg .r1 = 0x8001 ∧ t.cond = .neg) := by decide
/-- L2-A12. -/
theorem test_andImm_extends :
    after (step ((one 0x5270).setReg .r1 0xABCD)) (fun t => t.reg .r1 = 0xABC0 ∧ t.cond = .neg) := by decide
/-- L2-A11. -/
theorem test_andImm_clears :
    after (step ({ one 0x5020 with cond := .pos }.setReg .r0 0x1234)) (fun t => t.reg .r0 = 0 ∧ t.cond = .zero) := by
  decide

/-- L2-LS11. -/
theorem test_ldr_wraps :
    after (step ((start 0x3000 [(0x3000, 0x6281), (0, 0x00AA)]).setReg .r2 0xFFFF))
      (fun t => t.reg .r1 = 0x00AA ∧ t.cond = .pos) := by decide
/-- L2-LS10. -/
theorem test_ldr_base_is_dr :
    after (step ((start 0x3000 [(0x3000, 0x6240), (0x4000, 0x1234)]).setReg .r1 0x4000))
      (fun t => t.reg .r1 = 0x1234) := by decide
/-- L2-LS18. -/
theorem test_str_wraps :
    after (step ((one 0x705F).setReg .r1 0xFFF0 |>.setReg .r0 0x9999)) (fun t => t.mem.peek 0x000F = 0x9999) := by decide
/-- L2-LS19, its first cycle. -/
theorem test_str_to_kbsr_is_plain :
    after (step ((one 0x7040).setReg .r1 0xFE00 |>.setReg .r0 0x1234)) (fun t => t.mem.peek 0xFE00 = 0x1234) := by decide

/-- L2-S1. -/
theorem test_rti : after (step { one 0x8000 with cond := .neg }) (fun t => t = { one 0x8000 with cond := .neg, pc := 0x3001 }) := by
  decide

/-- L2-A17. -/
theorem test_not_ignores_low_bits :
    after (step ((one 0x9200).setReg .r0 0x00FF)) (fun t => t.reg .r1 = 0xFF00 ∧ t.cond = .neg) := by decide
/-- L2-A18. -/
theorem test_not_same :
    after (step ((one 0x94BF).setReg .r2 0x8000)) (fun t => t.reg .r2 = 0x7FFF ∧ t.cond = .pos) := by decide

/-- L2-LS20, L1-4. -/
theorem test_ldi :
    after (step (start 0x3000 [(0x3000, 0xA001), (0x3002, 0x4000), (0x4000, 5)])) (fun t => t.reg .r0 = 5) := by decide
/-- L2-LS22. -/
theorem test_ldi_polls :
    after (step { start 0x3000 [(0x3000, 0xA201), (0x3002, 0xFE00)] with input := [0x71], pollAnswers := [true] })
      (fun t => t.reg .r1 = 0x8000 ∧ t.mem.peek 0xFE00 = 0x8000 ∧ t.mem.peek 0xFE02 = 0x0071 ∧ t.cond = .neg) := by decide
/-- L2-LS23. -/
theorem test_sti :
    after (step ((start 0x3000 [(0x3000, 0xB201), (0x3002, 0x4000)]).setReg .r1 0xBEEF))
      (fun t => t.mem.peek 0x4000 = 0xBEEF ∧ t.mem.peek 0x3002 = 0x4000) := by decide
/-- L2-LS24. -/
theorem test_sti_over_pointer :
    after (step ((start 0x3000 [(0x3000, 0xB201), (0x3002, 0x3002)]).setReg .r1 0xBEEF))
      (fun t => t.mem.peek 0x3002 = 0xBEEF) := by decide

/-- L2-C20. -/
theorem test_jmp : after (step ((one 0xCEFF).setReg .r3 0x1234)) (fun t => t.pc = 0x1234) := by decide
/-- L2-C19. -/
theorem test_ret : after (step ((one 0xC1C0).setReg .r7 0x3456)) (fun t => t.pc = 0x3456) := by decide

/-- L2-S4. -/
theorem test_res :
    after (step ((one 0xDFFF).setReg .r0 7))
      (fun t => t.run = .halted (.illegalOpcode 0xDFFF 0x3000) ∧ t.pc = 0x3001 ∧ t.reg .r0 = 7) := by decide

/-- L2-LS27. -/
theorem test_lea_top :
    after (step (start 0xFFFF [(0xFFFF, 0xE200)])) (fun t => t.reg .r1 = 0 ∧ t.pc = 0 ∧ t.cond = .zero) := by decide
/-- L2-LS29. -/
theorem test_lea_back : after (step (one 0xE100)) (fun t => t.reg .r0 = 0x2F01 ∧ t.cond = .pos) := by decide

/-! ## The trap routines -/

/-- L2-T3. -/
theorem test_getc :
    after (step { one 0xF020 with input := [0x41], regs.r0 := 0xFFFF })
      (fun t => t.reg .r0 = 0x0041 ∧ t.reg .r7 = 0x3001 ∧ t.cond = .pos ∧ t.output = []) := by decide
/-- L2-T4. -/
theorem test_getc_eof :
    after (trapGetc (params .plain (some 0xFFFF)) State.reset) (fun t => t.reg .r0 = 0xFFFF ∧ t.cond = .neg) := by decide
/-- L2-T5. -/
theorem test_out :
    after (step ((one 0xF021).setReg .r0 0x1241)) (fun t => t.output = [0x41] ∧ t.reg .r7 = 0x3001 ∧ t.cond = .zero) := by
  decide
/-- L2-T9. -/
theorem test_puts :
    after (step ((start 0x3000 [(0x3000, 0xF022), (0x3010, 0x0100), (0x3011, 0x0041)]).setReg .r0 0x3010))
      (fun t => t.output = [0x00, 0x41] ∧ t.reg .r0 = 0x3010 ∧ t.reg .r7 = 0x3001) := by decide
/-- L2-T13. -/
theorem test_puts_polls :
    after (trapPuts (params .polling none)
        { (start 0x3001 [(0xFDFF, 0x0041), (0xFE00, 0x0042)]).setReg .r0 0xFDFF with
          input := [0x7A], pollAnswers := [true] })
      (fun t => t.output = [0x41, 0x00] ∧ t.mem.peek 0xFE00 = 0x8000 ∧ t.mem.peek 0xFE02 = 0x007A) := by decide
/-- R134: the prompt is put before the read, so it appears even if no character ever comes. -/
theorem test_in_blocked :
    trapIn (params .plain none) State.reset = .fault (.consoleReadBlocked { State.reset with output := [0x3F] }) := rfl
/-- L2-T14, with a prompt of one byte. -/
theorem test_in :
    after (trapIn (params .plain none) { State.reset with input := [0x78] })
      (fun t => t.output = [0x3F, 0x78] ∧ t.reg .r0 = 0x0078 ∧ t.cond = .pos) := by decide
/-- L2-T17. -/
theorem test_putsp :
    after (step ((start 0x3000 [(0x3000, 0xF024), (0x3020, 0x0041), (0x3021, 0x4342)]).setReg .r0 0x3020))
      (fun t => t.output = [0x41, 0x42, 0x43]) := by decide
/-- L2-T15 with a request between the two bytes of its first cell: R155 keeps the byte already put and no more happens. -/
theorem test_putsp_abandoned :
    after (step { (start 0x3000 [(0x3000, 0xF024), (0x3020, 0x6548), (0x3021, 0x006C)]).setReg .r0 0x3020 with
        requestIn := some 3 })
      (fun t => t.output = [0x48] ∧ t.run = .halted .interruptRequested ∧ t.reg .r7 = 0x3001 ∧ t.pc = 0x3001) := by decide
/-- L2-T18, with a notice of one byte. -/
theorem test_halt :
    after (trapHalt (params .plain none) State.reset) (fun t => t.output = [0x2E] ∧ t.run = .halted .haltTrap) := by decide
/-- L2-S5. -/
theorem test_trap_unknown :
    after (step (one 0xF026))
      (fun t => t.run = .halted (.illegalTrapVector 0x26 0x3000) ∧ t.reg .r7 = 0x3001 ∧ t.output = []) := by decide

/-! ## The cycle -/

/-- L2-S9. -/
theorem test_fetch_at_kbsr :
    after (step { start 0xFE00 [] with input := [0x61], pollAnswers := [true] })
      (fun t => t.mem.peek 0xFE00 = 0x8000 ∧ t.mem.peek 0xFE02 = 0x0061 ∧ t.pc = 0xFE01) := by decide
/-- L2-S10. -/
theorem test_request_before_fetch :
    after (step { one 0x1021 with interruptRequested := true })
      (fun t => t.run = .halted .interruptRequested ∧ t.pc = 0x3000 ∧ t.reg .r0 = 0) := by decide
/-- A word placed by the host runs at once. -/
theorem test_withFetchWord :
    after (step (State.reset.withFetchWord 16 0x1225)) (fun t => t.reg .r1 = 5 ∧ t.pc = 0x3001) := by decide

/-! ## The loader -/

/-- L2-LD2. -/
theorem test_load_truncates :
    (loadImage [] [0xFF, 0xFE, 0x11, 0x11, 0x22, 0x22, 0x33, 0x33]).map (fun m => (m.peek 0xFFFE, m.peek 0xFFFF, m.peek 0))
      = some (0x1111, 0x2222, 0) := by decide
/-- L2-LD4. -/
theorem test_load_later_wins :
    (boot [[0x30, 0x00, 0x00, 0x01, 0x00, 0x02, 0x00, 0x03], [0x30, 0x01, 0x00, 0x09]]).map
        (fun s => (s.mem.peek 0x3000, s.mem.peek 0x3001, s.mem.peek 0x3002)) = some (1, 9, 3) := by decide
/-- L2-LD5. -/
theorem test_load_odd_byte :
    (loadImage [] [0x30, 0x00, 0x12, 0x34, 0x56]).map (fun m => (m.peek 0x3000, m.peek 0x3001)) = some (0x1234, 0) := by
  decide
/-- L2-LD7. -/
theorem test_load_failure : boot [[0x30]] = none := by decide

/-! ## Witnesses: for each obligation with hypotheses, a state and operands that meet them together -/

/-- A request due at the next point. -/
def due : State := { State.reset with requestIn := some 0 }

/-- A request made. -/
def made : State := { State.reset with interruptRequested := true }

/-- Memory with 0x0101 in every cell. -/
def fullMemory : Memory := (List.range 131072).map fun k => (k, 1)

theorem readByte_map_one (l : List Nat) (k : Nat) (h : k ∈ l) :
    Memory.readByte (l.map fun k => (k, 1)) k = 1 := by
  induction l with
  | nil => cases h
  | cons x xs ih =>
    rw [List.map_cons, Memory.readByte]
    split
    · rfl
    · rename_i hx
      exact ih ((List.mem_cons.1 h).resolve_left fun e => hx e.symm)

theorem fullMemory_peek (a : Word) : fullMemory.peek a = 0x0101 := by
  have h := a.isLt
  rw [Memory.peek, fullMemory, readByte_map_one _ _ (List.mem_range.2 (by omega)),
    readByte_map_one _ _ (List.mem_range.2 (by omega))]
  rfl

/-- The reset state with no zero word in memory. -/
def full : State := { State.reset with mem := fullMemory }

theorem full_noRequest : full.noRequest := ⟨rfl, rfl⟩

theorem full_mem : full.mem = fullMemory := by simp only [full]

theorem full_walk (n : Nat) : ∀ (a : Word) (s : State), s.noRequest → s.mem = fullMemory →
    stringWalk .plain emitPuts n a s = .stuck .stringWalkNeverEnds := by
  induction n with
  | zero => intro a s _ _; rfl
  | succ n ih =>
    intro a s hq hm
    rw [stringWalk_cell hq.1 hq.2 (.inl rfl) (by rw [hm, fullMemory_peek]; decide)]
    exact ih _ _ hq hm

theorem witness_DecodeEncodeRoundTrip : (Instr.res 0xDFFF).wellFormed = true ∧ (Instr.lea .r7 0x1FF).wellFormed = true := by
  decide

theorem witness_IgnoredBitsDecodeAlike :
    ∃ w v : Word, w ≠ v ∧ w &&& ~~~(decode w).ignoredBits = v &&& ~~~(decode w).ignoredBits :=
  ⟨0x1401, 0x1419, by decide⟩

theorem witness_MemoryReadAfterWrite : ∃ b : Word, b ≠ kbsr ∧ b + 1 = kbsr := ⟨0xFDFF, by decide⟩

theorem witness_KeyboardStatusRead :
    State.reset.noRequestDue ∧ { State.reset with requestIn := some 1 }.noRequestDue ∧
      (0xFE01 : Word) ≠ kbsr ∧ (0xFE01 : Word) ≠ kbdr := by decide
theorem witness_KeyboardStatusRead_no_key : { State.reset with pollAnswers := [false] }.polledWord = 0 := by decide
theorem witness_KeyboardStatusRead_key :
    { State.reset with pollAnswers := [true], input := [0x78] }.polledWord = 0x8000 := by decide

theorem witness_KeyboardStatusRead_answers :
    ∃ s u v w : State, (s.noRequestDue ∧ s.pollAnswers = true :: [false] ∧ s.input = 0x00 :: [0x41]) ∧
      (u.noRequestDue ∧ u.pollAnswers = false :: [] ∧ u.input = [0x41]) ∧ (v.noRequestDue ∧ v.input = []) ∧
      (w.noRequestDue ∧ w.pollAnswers = [] ∧ w.input ≠ []) :=
  ⟨{ State.reset with pollAnswers := [true, false], input := [0x00, 0x41] },
    { State.reset with pollAnswers := [false], input := [0x41] }, State.reset, { State.reset with input := [0x41] }, by decide⟩

theorem witness_StepRunsDecodedInstr :
    ∃ (s : State) (i : Instr), s.run = .running ∧ s.noRequestDue ∧ s.pc ≠ kbsr ∧ decode (s.mem.peek s.pc) = i ∧
      i.wellFormed = true ∧ s.requestIn = none :=
  ⟨start 0xFDFF [(0xFDFF, 0xD123)], .res 0xD123, by decide⟩
theorem witness_StepRunsDecodedInstr_scheduled :
    ∃ s : State, s.requestIn = some 1 ∧ s.run = .running ∧ s.noRequestDue ∧ s.pc ≠ kbsr ∧
      decode (s.mem.peek s.pc) = .addImm .r1 .r0 5 :=
  ⟨{ one 0x1225 with requestIn := some 1 }, by decide⟩

theorem witness_FetchAtKeyboardStatus :
    ∃ s : State, s.run = .running ∧ s.pc = kbsr ∧ s.noRequestDue ∧ s.hostTurn.noRequestDue :=
  ⟨start 0xFE00 [], by decide⟩
theorem witness_FetchAtKeyboardStatus_request :
    ∃ s : State, s.run = .running ∧ s.pc = kbsr ∧ s.noRequestDue ∧ ¬s.hostTurn.noRequestDue :=
  ⟨{ start 0xFE00 [] with requestIn := some 1 }, by decide⟩

theorem witness_RequestTakenBeforeFetch :
    due.run = .running ∧ ¬due.noRequestDue ∧ made.run = .running ∧ ¬made.noRequestDue := by decide

theorem witness_HaltedMakesNoStep : ∃ s : State, s.run = .halted (.illegalTrapVector 0x26 0x3000) :=
  ⟨{ State.reset with run := .halted (.illegalTrapVector 0x26 0x3000) }, rfl⟩

theorem witness_LoadPcRelative :
    (start 0xFE00 []).pc + sext (0x1FF#9) ≠ kbsr ∧ (start 0xFE00 []).pc + sext (0x001#9) ≠ kbsr := by decide
theorem witness_LoadPcRelative_kbsr :
    (start 0xFF00 []).pc + sext (0x100#9) = kbsr ∧ (start 0xFF00 []).noRequestDue := by decide

theorem witness_LoadBaseOffset :
    (State.reset.setReg .r2 0xFE00).reg .r2 + sext (0x3F#6) ≠ kbsr ∧
      (State.reset.setReg .r2 0xFE00).reg .r2 + sext (0x01#6) ≠ kbsr := by decide
theorem witness_LoadBaseOffset_kbsr :
    (State.reset.setReg .r2 0xFE20).reg .r2 + sext (0x20#6) = kbsr ∧ (State.reset.setReg .r2 0xFE20).noRequestDue := by
  decide

theorem witness_LoadIndirect :
    ∃ s : State, s.pc + sext (1#9) ≠ kbsr ∧ s.mem.peek (s.pc + sext (1#9)) ≠ kbsr :=
  ⟨start 0x3001 [(0x3002, 0xFE01)], by decide⟩
theorem witness_LoadIndirect_data_kbsr :
    ∃ s : State, s.pc + sext (1#9) ≠ kbsr ∧ s.mem.peek (s.pc + sext (1#9)) = kbsr ∧ s.noRequestDue :=
  ⟨start 0x3001 [(0x3002, 0xFE00)], by decide⟩
theorem witness_LoadIndirect_pointer_kbsr : ∃ s : State, s.pc + sext (0x1FF#9) = kbsr ∧ s.noRequestDue :=
  ⟨start 0xFE01 [], by decide⟩

theorem witness_StoreIndirect : ∃ s : State, s.pc + sext (1#9) ≠ kbsr ∧ s.mem.peek (s.pc + sext (1#9)) = kbsr :=
  ⟨start 0x3001 [(0x3002, 0xFE00)], by decide⟩
theorem witness_StoreIndirect_kbsr : ∃ s : State, s.pc + sext (0x1FF#9) = kbsr ∧ s.noRequestDue :=
  ⟨start 0xFE01 [], by decide⟩

theorem witness_UnknownVectorHalts : (0x1F#8).toNat < 0x20 ∧ 0x25 < (0x26#8).toNat ∧ 0x25 < (0xFF#8).toNat := by decide

theorem witness_ConsoleReadsCharacter :
    ∃ (s : State) (c : Byte) (rest : List Byte), s.noRequestDue ∧ s.input = c :: rest ∧ c = 0 :=
  ⟨{ State.reset with input := [0x00, 0x41] }, 0x00, [0x41], by decide⟩

theorem witness_ConsoleReadExhausted : State.reset.noRequestDue ∧ State.reset.input = [] := by decide
theorem witness_ConsoleReadExhausted_request :
    { State.reset with requestIn := some 1 }.noRequestDue ∧ { State.reset with requestIn := some 1 }.input = [] := by decide

/-- L2-T10: a string of two cells that wraps past the top of memory. -/
def wrapString : State := (start 0x3001 [(0xFFFF, 0x0041), (0, 0x0042)]).setReg .r0 0xFFFF

theorem witness_StringRoutinesWriteString :
    2 < 65536 ∧ wrapString.noRequest ∧
      (Config.params.stringReadMode = .plain ∨ ∀ i, i ≤ 2 → wrapString.reg .r0 + BitVec.ofNat 16 i ≠ kbsr) ∧
      (∀ i, i < 2 → wrapString.mem.peek (wrapString.reg .r0 + BitVec.ofNat 16 i) ≠ 0) ∧
      wrapString.mem.peek (wrapString.reg .r0 + BitVec.ofNat 16 2) = 0 :=
  ⟨by decide, by decide, .inr (by decide), by decide, by decide⟩
theorem witness_StringRoutinesWriteString_empty :
    State.reset.noRequest ∧ (∀ i, i ≤ 0 → State.reset.reg .r0 + BitVec.ofNat 16 i ≠ kbsr) ∧
      State.reset.mem.peek (State.reset.reg .r0 + BitVec.ofNat 16 0) = 0 := by decide

/-- L2-T13 and a string that goes on over KBDR: a polling walk of one cell up to KBSR. -/
def kbsrString : State :=
  { (start 0x3001 [(0xFDFF, 0x0041), (0xFE01, 0x0043)]).setReg .r0 0xFDFF with input := [0x7A], pollAnswers := [true] }

theorem witness_PollingWalkAtKbsr_no_key :
    ∃ (p : Params) (s : State), p.stringReadMode = .polling ∧ s.noRequest ∧
      (∀ i, i < 1 → s.mem.peek (s.reg .r0 + BitVec.ofNat 16 i) ≠ 0 ∧ s.reg .r0 + BitVec.ofNat 16 i ≠ kbsr) ∧
      s.reg .r0 + BitVec.ofNat 16 1 = kbsr ∧ s.polledWord = 0 :=
  ⟨params .polling none, { kbsrString with pollAnswers := [false] }, by decide⟩
theorem witness_PollingWalkAtKbsr_key :
    (params .polling none).stringReadMode = .polling ∧ kbsrString.noRequest ∧
      (∀ i, i < 1 → kbsrString.mem.peek (kbsrString.reg .r0 + BitVec.ofNat 16 i) ≠ 0 ∧
        kbsrString.reg .r0 + BitVec.ofNat 16 i ≠ kbsr) ∧
      kbsrString.reg .r0 + BitVec.ofNat 16 1 = kbsr ∧ kbsrString.polledWord = 0x8000 ∧
      (∀ i, i < 2 → kbsrString.afterPoll.mem.peek (kbsr + 1 + BitVec.ofNat 16 i) ≠ 0) ∧
      kbsrString.afterPoll.mem.peek (kbsr + 1 + BitVec.ofNat 16 2) = 0 := by decide
theorem witness_PollingWalkAtKbsr_at_once :
    ∃ s : State, s.noRequest ∧ s.reg .r0 + BitVec.ofNat 16 0 = kbsr ∧ s.polledWord = 0x8000 ∧
      s.afterPoll.mem.peek (kbsr + 1 + BitVec.ofNat 16 0) = 0 :=
  ⟨{ State.reset.setReg .r0 0xFE00 with input := [0x7A], pollAnswers := [true] }, by decide⟩

theorem witness_RequestAbandonsStringWalk :
    wrapString.interruptRequested = false ∧
      (Config.params.stringReadMode = .plain ∨ ∀ i, i ≤ 2 → wrapString.reg .r0 + BitVec.ofNat 16 i ≠ kbsr) ∧
      (∀ i, i < 2 → wrapString.mem.peek (wrapString.reg .r0 + BitVec.ofNat 16 i) ≠ 0) ∧
      wrapString.mem.peek (wrapString.reg .r0 + BitVec.ofNat 16 2) = 0 :=
  ⟨by decide, .inr (by decide), by decide, by decide⟩

theorem witness_StringWithoutZeroNeverEnds :
    (params .plain none).stringReadMode = .plain ∧ full.noRequest ∧ ∀ a, full.mem.peek a ≠ 0 :=
  ⟨rfl, full_noRequest, fun a h => absurd ((fullMemory_peek a).symm.trans (full_mem ▸ h)) (by decide)⟩

theorem witness_WalkVerdictIsSound :
    stringWalk .plain emitPuts (walkBound full) 0 full = .stuck .stringWalkNeverEnds :=
  full_walk (walkBound full) 0 full full_noRequest full_mem

theorem witness_RequestAbandonsWaits :
    ∃ s : State, ¬s.noRequestDue ∧ pcRelative (0x1FF#9) s = kbsr ∧ basePlusOffset .r2 0 s = kbsr :=
  ⟨{ start 0xFE01 [] with requestIn := some 0, regs.r2 := 0xFE00 }, by decide⟩
theorem witness_RequestAbandonsWaits_data :
    ∃ s : State, ¬s.noRequestDue ∧ pcRelative (1#9) s ≠ kbsr ∧ s.mem.peek (pcRelative (1#9) s) = kbsr :=
  ⟨{ start 0x3001 [(0x3002, 0xFE00)] with interruptRequested := true }, by decide⟩

theorem witness_OperateFrame :
    ∀ i ∈ [Instr.addReg .r1 .r1 .r1, .addImm .r7 .r0 0x10, .andReg .r0 .r1 .r2, .andImm .r1 .r1 0, .not .r1 .r0,
      .lea .r0 0x1FF], ∃ t, exec i State.reset = .next t := by
  intro i hi
  fin_cases hi <;> exact ⟨_, rfl⟩

theorem witness_LoadFrame :
    ∀ i ∈ [Instr.ld .r1 0x1FF, .ldr .r1 .r1 0x3F, .ldi .r1 0],
      (∃ t, exec i State.reset = .next t) ∧ ¬readsKbsr i State.reset := by
  intro i hi
  fin_cases hi
  · exact ⟨⟨_, rfl⟩, by simp only [readsKbsr]; decide⟩
  · exact ⟨⟨_, rfl⟩, by simp only [readsKbsr]; decide⟩
  · exact ⟨⟨_, rfl⟩, by simp only [readsKbsr]; decide⟩
theorem witness_LoadFrame_kbsr : ∃ t, exec (.ld .r1 0) (start 0xFE00 []) = .next t ∧ readsKbsr (.ld .r1 0) (start 0xFE00 []) :=
  ⟨_, rfl, by simp only [readsKbsr]; decide⟩
theorem witness_LoadFrame_abandoned :
    ∃ t, exec (.ld .r1 0) { start 0xFE00 [] with interruptRequested := true } = .next t ∧
      t.run = .halted .interruptRequested :=
  ⟨_, rfl, rfl⟩

theorem witness_StoreFrame :
    (∃ t, exec (.st .r1 0x1FF) State.reset = .next t) ∧ (∃ t, exec (.str .r1 .r1 0x20) State.reset = .next t) ∧
      ∃ t, exec (.sti .r1 0) State.reset = .next t :=
  ⟨⟨_, rfl⟩, ⟨_, rfl⟩, ⟨_, rfl⟩⟩
theorem witness_StoreFrame_indirect :
    (∃ ea s', indirect 0 (start 0xFE00 []) = .done ea s') ∧ ¬readsKbsr (.sti .r1 0) State.reset :=
  ⟨⟨_, _, rfl⟩, by simp only [readsKbsr]; decide⟩
theorem witness_StoreFrame_abandoned :
    ∃ s s' t, indirect 0 s = .abandoned s' ∧ exec (.sti .r1 0) s = .next t :=
  ⟨{ start 0xFE00 [] with interruptRequested := true }, _, _, rfl, rfl⟩

theorem witness_ControlFrame :
    ∀ i ∈ [Instr.br true true true 0x100, .jsr 0x400, .jsrr .r7, .jmp .r7, .rti], ∃ t, exec i State.reset = .next t := by
  intro i hi
  fin_cases hi <;> exact ⟨_, rfl⟩

theorem witness_SystemFrame : ∃ t, exec (.res 0xD000) State.reset = .next t := ⟨_, rfl⟩
theorem witness_SystemFrame_trap :
    ∀ v ∈ [0x1F#8, 0x20, 0x21, 0x22, 0x23, 0x24, 0x25, 0x26],
      ∃ t, exec (.trap v) { State.reset with input := [0x41] } = .next t := by
  intro v hv
  have h : ∀ v ∈ [0x1F#8, 0x20, 0x21, 0x22, 0x23, 0x24, 0x25, 0x26],
      after (exec (.trap v) { State.reset with input := [0x41] }) (fun _ => true) = true := by decide
  obtain ⟨t, ht, -⟩ := exists_next (h v hv)
  exact ⟨t, ht⟩

theorem witness_FlagWriters :
    State.reset.run = .running ∧ ∃ t, exec (.ldi .r1 0) State.reset = .next t ∧ t.run ≠ .halted .interruptRequested :=
  ⟨rfl, _, rfl, by decide⟩
theorem witness_FlagWriters_abandoned :
    ∃ s t : State, s.run = .running ∧ exec (.trap 0x20) s = .next t ∧ t.run = .halted .interruptRequested :=
  ⟨made, _, rfl, rfl, rfl⟩

theorem witness_OnlyBranchReadsCond : ∀ n z p off, Instr.trap 0x22 ≠ .br n z p off := by
  intro n z p off h
  cases h

theorem witness_StepKeepsMemoryCanonical : (one 0x3604).mem.wf ∧ ∃ t, step (one 0x3604) = .next t := by
  refine ⟨by decide, ?_⟩
  obtain ⟨t, ht, -⟩ := exists_next (show after (step (one 0x3604)) (fun _ => true) = true by decide)
  exact ⟨t, ht⟩

theorem witness_StepKeepsHostPromises : ∃ t, step made = .next t ∧ made.interruptRequested = true := ⟨_, rfl, rfl⟩

/-- Each of the four ways to halt is taken by some step. -/
theorem witness_OnlyTheseHalt :
    after (step (one 0xF025)) (fun t => t.run = .halted .haltTrap) ∧
      after (step (one 0xD000)) (fun t => t.run = .halted (.illegalOpcode 0xD000 0x3000)) ∧
      after (step (one 0xF01F)) (fun t => t.run = .halted (.illegalTrapVector 0x1F 0x3000)) ∧
      after (step due) (fun t => t.run = .halted .interruptRequested) := by decide

/-- L2-LS7. -/
theorem witness_StoreReachesNextFetch :
    ∃ s : State, s.run = .running ∧ s.noRequest ∧ s.pc ≠ kbsr ∧ s.pc + 1 ≠ kbsr ∧
      decode (s.mem.peek s.pc) = .st .r3 0 ∧ s.reg .r3 = 0xF025 :=
  ⟨(one 0x3600).setReg .r3 0xF025, by decide⟩

/-- L2-LD3: the condition of a loaded cell at the top of memory, where the second word is not loaded. -/
theorem witness_LoadImageCells :
    256 * (0xFF#8).toNat + (0xFF#8).toNat ≤ (0xFFFF#16).toNat ∧
      2 * ((0xFFFF#16).toNat - (256 * (0xFF#8).toNat + (0xFF#8).toNat)) + 1 < [0xAA#8, 0xAA, 0xBB, 0xBB].length ∧
      Memory.wf [] := by decide
theorem witness_LoadImageCells_wf : Memory.wf [(0x6000, 0x34), (0x6001, 0x12)] := by decide

theorem witness_LoadImageEdgeCases : [0x12#8, 0x34].length % 2 = 0 ∧ ([] : List Byte).length % 2 = 0 := by decide

end Sys2Proof.Tests
end

section
/-! PROOFS. The statements of the scope chapter: sign and zero extension (spec/00_scope.md R13), and JSRR
(spec/42_control.md R112). -/

namespace Sys2Proof.Machine

/-- R13 at every field width: the low bits are those of the field, and each bit above is its highest bit. -/
theorem getLsbD_sext {k : Nat} (v : BitVec k) {i : Nat} (hi : i < 16) :
    (sext v).getLsbD i = if i < k then v.getLsbD i else v.getLsbD (k - 1) := by
  rw [sext, BitVec.getLsbD_signExtend, decide_eq_true hi, Bool.true_and, BitVec.msb_eq_getLsbD_last]

/-- Zero extension adds no set bit: a bit past the field's width reads as 0 already in the field. -/
theorem getLsbD_zeroExtend_word {k : Nat} (v : BitVec k) {i : Nat} (hi : i < 16) :
    (v.zeroExtend 16 : Word).getLsbD i = if i < k then v.getLsbD i else false := by
  have hlow : (v.zeroExtend 16 : Word).getLsbD i = v.getLsbD i := by
    rw [BitVec.getLsbD_setWidth, decide_eq_true hi, Bool.true_and]
  split
  · exact hlow
  next hk => exact hlow.trans (BitVec.getLsbD_of_ge v i (Nat.le_of_not_lt hk))

/-- Opcode 0100 with bit 11 clear is JSRR of the register in bits 8:6 (30_encoding.md R61, R63). -/
theorem decode_jsrr (ignored1 : BitVec 2) (base : Reg) (ignored2 : BitVec 6) :
    decode (0x4#4 ++ (0#1 ++ (ignored1 ++ (base.toField ++ ignored2)))) = .jsrr base := by
  have hop := opcodeField_append 0x4#4 (0#1 ++ (ignored1 ++ (base.toField ++ ignored2)))
  have hselect := bit11_append 0x4#4 0#1 (ignored1 ++ (base.toField ++ ignored2))
  have hbase := fieldBase_append_jsrr 0x4#4 0#1 ignored1 base ignored2
  unfold decode
  rw [hop, hselect, hbase]
  rfl

/-- The base JSRR jumps to is read after R7 is written, so it differs from the old one at R7 only (decision D14). -/
theorem exec_jsrr (base : Reg) (s : State) :
    exec (.jsrr base) s = .next { s with
      regs := s.regs.set .r7 s.pc, pc := if base = .r7 then s.pc else s.reg base } := by
  have htarget := s.setReg_reg .r7 base s.pc
  calc exec (.jsrr base) s
      = .next ((s.setReg .r7 s.pc).setPc ((s.setReg .r7 s.pc).reg base)) := rfl
    _ = .next ((s.setReg .r7 s.pc).setPc (if base = .r7 then s.pc else s.reg base)) := by rw [htarget]

end Sys2Proof.Machine

open Sys2Proof.Machine

/-- Settles O6: the bits of `sext` at any width, taken at the four field widths, and those of zero extension. -/
theorem signExtensionBits : Obligations.SignExtensionBits := by
  unfold Obligations.SignExtensionBits
  exact ⟨fun v i => getLsbD_sext v i.isLt, fun v i => getLsbD_sext v i.isLt, fun v i => getLsbD_sext v i.isLt,
    fun v i => getLsbD_sext v i.isLt, fun _ v i => getLsbD_zeroExtend_word v i.isLt⟩

/-- Settles O31: JSRR decodes by its fields, and jumps to the base as it stands once R7 is written. -/
theorem jumpSubroutineRegister : Obligations.JumpSubroutineRegister := by
  unfold Obligations.JumpSubroutineRegister
  exact fun base ignored1 ignored2 s => ⟨decode_jsrr ignored1 base ignored2, exec_jsrr base s⟩
end

section
/-! PROOFS. The statements of the memory chapter: a write is plain storage (spec/20_memory.md R41, R42, R53). -/

namespace Sys2Proof.Machine

/-- R42 and R53 on the state: the written cell holds the word, every other cell what it held. -/
theorem State.memWrite_peek (s : State) (a b v : Word) :
    (s.memWrite a v).mem.peek b = if b = a then v else s.mem.peek b := by
  rw [State.memWrite_mem, Memory.peek_poke]

/-- A read of any cell but KBSR polls nothing (R41), so after a write it answers the stored word and keeps the state. -/
theorem memRead_memWrite_of_ne {b : Word} (hb : b ≠ kbsr) (s : State) (a v : Word) :
    memRead b (s.memWrite a v) = .done (if b = a then v else s.mem.peek b) (s.memWrite a v) := by
  rw [memRead_of_ne hb, State.memWrite_peek]

end Sys2Proof.Machine

open Sys2Proof.Machine

/-- Settles O9: the cells after a write, the read that finds them, and the write's whole next state by definition. -/
theorem memoryReadAfterWrite : Obligations.MemoryReadAfterWrite := by
  unfold Obligations.MemoryReadAfterWrite
  intro s a b v
  have hcells := State.memWrite_peek s a b v
  have hread := fun hb : b ≠ kbsr => memRead_memWrite_of_ne hb s a v
  exact ⟨hcells, hread, rfl⟩
end

section
/-! PROOFS. The statements of the operate chapter (spec/40_operate.md R80 to R84): ADD, AND and NOT. Each decodes by the
fields of its format whatever its ignored bits hold, and each defines DR once with a word made of the old sources. -/

namespace Sys2Proof

/-! ## Words of the operate formats -/

/-- A word of format OPR, register form (30_encoding.md R63): bit 5 clear, bits 4:3 ignored. -/
def wordOPR (op : BitVec 4) (dr sr1 sr2 : Reg) (ignored : BitVec 2) : Word :=
  op ++ (dr.toField ++ (sr1.toField ++ (0#1 ++ (ignored ++ sr2.toField))))

/-- A word of format OPI, immediate form (R63): bit 5 set, imm5 below it. -/
def wordOPI (op : BitVec 4) (dr sr1 : Reg) (imm : BitVec 5) : Word :=
  op ++ (dr.toField ++ (sr1.toField ++ (1#1 ++ imm)))

theorem wordOPR_fields (op : BitVec 4) (dr sr1 sr2 : Reg) (ignored : BitVec 2) :
    opcodeField (wordOPR op dr sr1 sr2 ignored) = op ∧ (wordOPR op dr sr1 sr2 ignored).getLsbD 5 = false ∧
    fieldDR (wordOPR op dr sr1 sr2 ignored) = dr ∧ fieldBase (wordOPR op dr sr1 sr2 ignored) = sr1 ∧
    fieldSR2 (wordOPR op dr sr1 sr2 ignored) = sr2 :=
  ⟨opcodeField_append op _, bit5_append op _ _ 0#1 _, fieldDR_append op dr _, fieldBase_append op _ sr1 _,
    fieldSR2_append op _ _ _ ignored sr2⟩

theorem wordOPI_fields (op : BitVec 4) (dr sr1 : Reg) (imm : BitVec 5) :
    opcodeField (wordOPI op dr sr1 imm) = op ∧ (wordOPI op dr sr1 imm).getLsbD 5 = true ∧
    fieldDR (wordOPI op dr sr1 imm) = dr ∧ fieldBase (wordOPI op dr sr1 imm) = sr1 ∧
    fieldImm5 (wordOPI op dr sr1 imm) = imm :=
  ⟨opcodeField_append op _, bit5_append op _ _ 1#1 _, fieldDR_append op dr _, fieldBase_append op _ sr1 _,
    fieldImm5_append op _ _ _ imm⟩

/-! ## Decoding by opcode (30_encoding.md R61) -/

theorem decode_of_opcode_add {w : Word} (hop : opcodeField w = 0x1#4) :
    decode w = if w.getLsbD 5 then .addImm (fieldDR w) (fieldBase w) (fieldImm5 w)
      else .addReg (fieldDR w) (fieldBase w) (fieldSR2 w) := by
  unfold decode
  rw [hop]
  rfl

theorem decode_of_opcode_and {w : Word} (hop : opcodeField w = 0x5#4) :
    decode w = if w.getLsbD 5 then .andImm (fieldDR w) (fieldBase w) (fieldImm5 w)
      else .andReg (fieldDR w) (fieldBase w) (fieldSR2 w) := by
  unfold decode
  rw [hop]
  rfl

theorem decode_of_opcode_not {w : Word} (hop : opcodeField w = 0x9#4) :
    decode w = .not (fieldDR w) (fieldBase w) := by
  unfold decode
  rw [hop]
  rfl

theorem decode_addReg (dr sr1 sr2 : Reg) (ignored : BitVec 2) :
    decode (wordOPR 0x1#4 dr sr1 sr2 ignored) = .addReg dr sr1 sr2 := by
  obtain ⟨hop, hmode, hdr, hsr1, hsr2⟩ := wordOPR_fields 0x1#4 dr sr1 sr2 ignored
  rw [decode_of_opcode_add hop, if_neg (ne_true_of_eq_false hmode), hdr, hsr1, hsr2]

theorem decode_addImm (dr sr1 : Reg) (imm : BitVec 5) :
    decode (wordOPI 0x1#4 dr sr1 imm) = .addImm dr sr1 imm := by
  obtain ⟨hop, hmode, hdr, hsr1, himm⟩ := wordOPI_fields 0x1#4 dr sr1 imm
  rw [decode_of_opcode_add hop, if_pos hmode, hdr, hsr1, himm]

theorem decode_andReg (dr sr1 sr2 : Reg) (ignored : BitVec 2) :
    decode (wordOPR 0x5#4 dr sr1 sr2 ignored) = .andReg dr sr1 sr2 := by
  obtain ⟨hop, hmode, hdr, hsr1, hsr2⟩ := wordOPR_fields 0x5#4 dr sr1 sr2 ignored
  rw [decode_of_opcode_and hop, if_neg (ne_true_of_eq_false hmode), hdr, hsr1, hsr2]

theorem decode_andImm (dr sr1 : Reg) (imm : BitVec 5) :
    decode (wordOPI 0x5#4 dr sr1 imm) = .andImm dr sr1 imm := by
  obtain ⟨hop, hmode, hdr, hsr1, himm⟩ := wordOPI_fields 0x5#4 dr sr1 imm
  rw [decode_of_opcode_and hop, if_pos hmode, hdr, hsr1, himm]

theorem decode_not (dr sr : Reg) (ignored : BitVec 6) :
    decode (0x9#4 ++ (dr.toField ++ (sr.toField ++ ignored))) = .not dr sr := by
  have hop := opcodeField_append 0x9#4 (dr.toField ++ (sr.toField ++ ignored))
  have hdr := fieldDR_append 0x9#4 dr (sr.toField ++ ignored)
  have hsr := fieldBase_append 0x9#4 dr.toField sr ignored
  rw [decode_of_opcode_not hop, hdr, hsr]

end Sys2Proof

namespace Sys2Proof.Machine

/-! ## Execution: one write of DR, and the flags of what was written -/

/-- The outcome that only defines a register: the sources stand in `v`, so they are the old ones even when DR is
one of them. -/
theorem next_defineReg (dr : Reg) (v : Word) (s : State) :
    (.next (defineReg dr v s) : Outcome) = .next { s with regs := s.regs.set dr v, cond := condOf v } := by
  rw [defineReg_eq]

theorem exec_addReg (dr sr1 sr2 : Reg) (s : State) :
    exec (.addReg dr sr1 sr2) s = .next { s with
      regs := s.regs.set dr (s.reg sr1 + s.reg sr2), cond := condOf (s.reg sr1 + s.reg sr2) } :=
  next_defineReg dr (s.reg sr1 + s.reg sr2) s

theorem exec_addImm (dr sr1 : Reg) (imm : BitVec 5) (s : State) :
    exec (.addImm dr sr1 imm) s = .next { s with
      regs := s.regs.set dr (s.reg sr1 + sext imm), cond := condOf (s.reg sr1 + sext imm) } :=
  next_defineReg dr (s.reg sr1 + sext imm) s

theorem exec_andReg (dr sr1 sr2 : Reg) (s : State) :
    exec (.andReg dr sr1 sr2) s = .next { s with
      regs := s.regs.set dr (s.reg sr1 &&& s.reg sr2), cond := condOf (s.reg sr1 &&& s.reg sr2) } :=
  next_defineReg dr (s.reg sr1 &&& s.reg sr2) s

theorem exec_andImm (dr sr1 : Reg) (imm : BitVec 5) (s : State) :
    exec (.andImm dr sr1 imm) s = .next { s with
      regs := s.regs.set dr (s.reg sr1 &&& sext imm), cond := condOf (s.reg sr1 &&& sext imm) } :=
  next_defineReg dr (s.reg sr1 &&& sext imm) s

theorem exec_not (dr sr : Reg) (s : State) :
    exec (.not dr sr) s = .next { s with
      regs := s.regs.set dr (~~~(s.reg sr)), cond := condOf (~~~(s.reg sr)) } :=
  next_defineReg dr (~~~(s.reg sr)) s

end Sys2Proof.Machine

open Sys2Proof Sys2Proof.Machine

/-- Settles O17: the OPR word of opcode 0001 reads back its three registers, and DR is defined with their old sum. -/
theorem addRegister : Obligations.AddRegister := by
  unfold Obligations.AddRegister
  exact fun dr sr1 sr2 ignored s => ⟨decode_addReg dr sr1 sr2 ignored, exec_addReg dr sr1 sr2 s⟩

/-- Settles O18: the OPI word of opcode 0001 reads back its immediate, which is added sign-extended. -/
theorem addImmediate : Obligations.AddImmediate := by
  unfold Obligations.AddImmediate
  exact fun dr sr1 imm s => ⟨decode_addImm dr sr1 imm, exec_addImm dr sr1 imm s⟩

/-- Settles O19: the OPR word of opcode 0101 reads back its three registers, and DR is defined with their old AND. -/
theorem andRegister : Obligations.AndRegister := by
  unfold Obligations.AndRegister
  exact fun dr sr1 sr2 ignored s => ⟨decode_andReg dr sr1 sr2 ignored, exec_andReg dr sr1 sr2 s⟩

/-- Settles O20: the OPI word of opcode 0101 reads back its immediate, which is sign-extended before the AND. -/
theorem andImmediate : Obligations.AndImmediate := by
  unfold Obligations.AndImmediate
  exact fun dr sr1 imm s => ⟨decode_andImm dr sr1 imm, exec_andImm dr sr1 imm s⟩

/-- Settles O21: no field of NOT reads the six low bits, and DR is defined with the complement of the old source. -/
theorem notComplement : Obligations.NotComplement := by
  unfold Obligations.NotComplement
  exact fun dr sr ignored s => ⟨decode_not dr sr ignored, exec_not dr sr s⟩
end

section
/-! PROOFS. The statements of the load and store chapter (spec/41_load_store.md R90 to R96). Each instruction decodes by
the fields of its format. Each of its reads looks a cell up or, at KBSR, polls; a store is plain storage everywhere. -/

namespace Sys2Proof

/-! ## Words of the load and store formats -/

/-- A word of format PC9 (30_encoding.md R63): a register, DR or SR, and PCoffset9. -/
def wordPC9 (op : BitVec 4) (r : Reg) (off : BitVec 9) : Word := op ++ (r.toField ++ off)

/-- A word of format BASE6 (R63): a register, DR or SR, the base, and offset6. -/
def wordBASE6 (op : BitVec 4) (r base : Reg) (off : BitVec 6) : Word :=
  op ++ (r.toField ++ (base.toField ++ off))

/-- A word of format PC9 decodes by its fields to the form its opcode has, whichever that is. -/
theorem decode_wordPC9 {op : BitVec 4} {form : Reg → BitVec 9 → Instr}
    (hform : ∀ {w : Word}, opcodeField w = op → decode w = form (fieldDR w) (fieldOff9 w))
    (r : Reg) (off : BitVec 9) : decode (wordPC9 op r off) = form r off := by
  have hop : opcodeField (wordPC9 op r off) = op := opcodeField_append op _
  have hr : fieldDR (wordPC9 op r off) = r := fieldDR_append op r off
  have hoff : fieldOff9 (wordPC9 op r off) = off := fieldOff9_append op r.toField off
  rw [hform hop, hr, hoff]

/-- The same of format BASE6. -/
theorem decode_wordBASE6 {op : BitVec 4} {form : Reg → Reg → BitVec 6 → Instr}
    (hform : ∀ {w : Word}, opcodeField w = op → decode w = form (fieldDR w) (fieldBase w) (fieldOff6 w))
    (r base : Reg) (off : BitVec 6) : decode (wordBASE6 op r base off) = form r base off := by
  have hop : opcodeField (wordBASE6 op r base off) = op := opcodeField_append op _
  have hr : fieldDR (wordBASE6 op r base off) = r := fieldDR_append op r _
  have hbase : fieldBase (wordBASE6 op r base off) = base := fieldBase_append op r.toField base off
  have hoff : fieldOff6 (wordBASE6 op r base off) = off := fieldOff6_append op r.toField base.toField off
  rw [hform hop, hr, hbase, hoff]

/-! ## Decoding by opcode (30_encoding.md R61) -/

theorem decode_of_opcode_ld {w : Word} (hop : opcodeField w = 0x2#4) : decode w = .ld (fieldDR w) (fieldOff9 w) := by
  rw [decode, hop]; rfl

theorem decode_of_opcode_st {w : Word} (hop : opcodeField w = 0x3#4) : decode w = .st (fieldDR w) (fieldOff9 w) := by
  rw [decode, hop]; rfl

theorem decode_of_opcode_ldr {w : Word} (hop : opcodeField w = 0x6#4) :
    decode w = .ldr (fieldDR w) (fieldBase w) (fieldOff6 w) := by
  rw [decode, hop]; rfl

theorem decode_of_opcode_str {w : Word} (hop : opcodeField w = 0x7#4) :
    decode w = .str (fieldDR w) (fieldBase w) (fieldOff6 w) := by
  rw [decode, hop]; rfl

theorem decode_of_opcode_ldi {w : Word} (hop : opcodeField w = 0xA#4) : decode w = .ldi (fieldDR w) (fieldOff9 w) := by
  rw [decode, hop]; rfl

theorem decode_of_opcode_sti {w : Word} (hop : opcodeField w = 0xB#4) : decode w = .sti (fieldDR w) (fieldOff9 w) := by
  rw [decode, hop]; rfl

theorem decode_of_opcode_lea {w : Word} (hop : opcodeField w = 0xE#4) : decode w = .lea (fieldDR w) (fieldOff9 w) := by
  rw [decode, hop]; rfl

end Sys2Proof

namespace Sys2Proof.Machine

/-! ## A load's last read, and the read of a pointer cell -/

variable {s : State} {a : Word}

/-- A load from any address but KBSR defines DR with the word there, and keeps everything else (20_memory.md R41). -/
theorem load_of_ne (ha : a ≠ kbsr) (dr : Reg) :
    (memRead a s).toNext (defineReg dr) = .next { s with
      regs := s.regs.set dr (s.mem.peek a), cond := condOf (s.mem.peek a) } := by
  rw [memRead_of_ne ha, Ran.toNext_done, defineReg_eq]

/-- A load from KBSR defines DR with the polled word, on the state the poll leaves, whose registers are the old ones
(R41, R43). -/
theorem load_of_kbsr (ha : a = kbsr) (hdue : s.noRequestDue) (dr : Reg) :
    (memRead a s).toNext (defineReg dr) = .next { s.afterPoll with
      regs := s.regs.set dr s.polledWord, cond := condOf s.polledWord } := by
  rw [ha, memRead_kbsr_of_noRequestDue hdue, Ran.toNext_done, defineReg_eq, State.afterPoll_regs]

theorem indirect_of_ne {off : BitVec 9} (ha : s.pc + sext off ≠ kbsr) :
    indirect off s = .done (s.mem.peek (s.pc + sext off)) s :=
  memRead_of_ne ha s

theorem indirect_of_kbsr {off : BitVec 9} (ha : s.pc + sext off = kbsr) (hdue : s.noRequestDue) :
    indirect off s = .done s.polledWord s.afterPoll := by
  rw [indirect, pcRelative, ha, memRead_kbsr_of_noRequestDue hdue]

/-! ## The indirect instructions: the pointer read first, then the data cell (R94, R95) -/

/-- LDI whose pointer read polls nothing is a load from where the pointer cell points. -/
theorem exec_ldi_of_ne {off : BitVec 9} (ha : s.pc + sext off ≠ kbsr) (dr : Reg) :
    exec (.ldi dr off) s = (memRead (s.mem.peek (s.pc + sext off)) s).toNext (defineReg dr) := by
  rw [exec, execLdi, indirect_of_ne ha, Ran.bind_done]

/-- LDI through KBSR: the polled word is 0x8000 or 0, so the data read that follows is a lookup. -/
theorem exec_ldi_of_kbsr {off : BitVec 9} (ha : s.pc + sext off = kbsr) (hdue : s.noRequestDue) (dr : Reg) :
    exec (.ldi dr off) s = .next { s.afterPoll with
      regs := s.regs.set dr (s.afterPoll.mem.peek s.polledWord),
      cond := condOf (s.afterPoll.mem.peek s.polledWord) } := by
  have hdata := load_of_ne (s := s.afterPoll) s.polledWord_ne_kbsr dr
  rw [exec, execLdi, indirect_of_kbsr ha hdue, Ran.bind_done, hdata, State.afterPoll_regs]

theorem exec_sti_of_ne {off : BitVec 9} (ha : s.pc + sext off ≠ kbsr) (sr : Reg) :
    exec (.sti sr off) s = .next { s with mem := s.mem.poke (s.mem.peek (s.pc + sext off)) (s.reg sr) } := by
  rw [exec, execSti, indirect_of_ne ha, Ran.toNext_done, State.memWrite]

/-- STI through KBSR stores SR, which the poll has left alone, at 0x8000 or 0. -/
theorem exec_sti_of_kbsr {off : BitVec 9} (ha : s.pc + sext off = kbsr) (hdue : s.noRequestDue) (sr : Reg) :
    exec (.sti sr off) s = .next { s.afterPoll with mem := s.afterPoll.mem.poke s.polledWord (s.reg sr) } := by
  rw [exec, execSti, indirect_of_kbsr ha hdue, Ran.toNext_done, State.memWrite, State.afterPoll_reg]

end Sys2Proof.Machine

open Sys2Proof Sys2Proof.Machine

/-- Settles O22: LD is one load from the PC-relative address, by lookup or by poll. -/
theorem loadPcRelative : Obligations.LoadPcRelative := by
  unfold Obligations.LoadPcRelative
  intro dr off s
  exact ⟨decode_wordPC9 decode_of_opcode_ld dr off, fun ha => load_of_ne ha dr,
    fun ha hdue => load_of_kbsr ha hdue dr⟩

/-- Settles O23: ST decodes by its fields, and its whole effect is one memory write, by definition. -/
theorem storePcRelative : Obligations.StorePcRelative := by
  unfold Obligations.StorePcRelative
  exact fun sr off s => ⟨decode_wordPC9 decode_of_opcode_st sr off, rfl⟩

/-- Settles O24: LDR is one load from an address made of the old base, by lookup or by poll. -/
theorem loadBaseOffset : Obligations.LoadBaseOffset := by
  unfold Obligations.LoadBaseOffset
  intro dr base off s
  exact ⟨decode_wordBASE6 decode_of_opcode_ldr dr base off, fun ha => load_of_ne ha dr,
    fun ha hdue => load_of_kbsr ha hdue dr⟩

/-- Settles O25: STR decodes by its fields, and its whole effect is one memory write, by definition. -/
theorem storeBaseOffset : Obligations.StoreBaseOffset := by
  unfold Obligations.StoreBaseOffset
  exact fun sr base off s => ⟨decode_wordBASE6 decode_of_opcode_str sr base off, rfl⟩

/-- Settles O26: by which of LDI's two reads is at KBSR, the pointer read or the data read; never both, since a polled
pointer is not KBSR. -/
theorem loadIndirect : Obligations.LoadIndirect := by
  unfold Obligations.LoadIndirect
  intro dr off s
  refine ⟨decode_wordPC9 decode_of_opcode_ldi dr off, fun hp hd => ?_, fun hp hd hdue => ?_, fun hp hdue => ?_⟩
  · exact (exec_ldi_of_ne hp dr).trans (load_of_ne hd dr)
  · exact (exec_ldi_of_ne hp dr).trans (load_of_kbsr hd hdue dr)
  · exact exec_ldi_of_kbsr hp hdue dr

/-- Settles O27: STI stores SR where the pointer cell points, and at the polled word when the pointer read polls. -/
theorem storeIndirect : Obligations.StoreIndirect := by
  unfold Obligations.StoreIndirect
  intro sr off s
  exact ⟨decode_wordPC9 decode_of_opcode_sti sr off, fun ha => exec_sti_of_ne ha sr,
    fun ha hdue => exec_sti_of_kbsr ha hdue sr⟩

/-- Settles O28: LEA defines DR with the address itself and reads no memory. -/
theorem loadEffectiveAddress : Obligations.LoadEffectiveAddress := by
  unfold Obligations.LoadEffectiveAddress
  exact fun dr off s => ⟨decode_wordPC9 decode_of_opcode_lea dr off, next_defineReg dr (s.pc + sext off) s⟩
end

section
/-! PROOFS. The statements of the control chapter (spec/42_control.md R111, R113): JSR and JMP. Each decodes by the
fields of its format; its next state is the old one with the new PC and, for JSR, the link in R7. -/

namespace Sys2Proof

/-! ## Decoding by opcode (30_encoding.md R61) -/

/-- Opcode 0100 is JSR or JSRR, as bit 11 selects. -/
theorem decode_of_opcode_jsr {w : Word} (hop : opcodeField w = 0x4#4) :
    decode w = if w.getLsbD 11 then .jsr (fieldOff11 w) else .jsrr (fieldBase w) := by
  rw [decode, hop]; rfl

theorem decode_of_opcode_jmp {w : Word} (hop : opcodeField w = 0xC#4) : decode w = .jmp (fieldBase w) := by
  rw [decode, hop]; rfl

theorem decode_jsr (off : BitVec 11) : decode (0x4#4 ++ (1#1 ++ off)) = .jsr off := by
  have hop := opcodeField_append 0x4#4 (1#1 ++ off)
  have hselect : BitVec.getLsbD (w := 16) (0x4#4 ++ (1#1 ++ off)) 11 = true := bit11_append 0x4#4 1#1 off
  have hoff := fieldOff11_append 0x4#4 1#1 off
  rw [decode_of_opcode_jsr hop, if_pos hselect, hoff]

/-- JMP reads the register in bits 8:6 only, so bits 11:9 and 5:0 are free (R113, 30_encoding.md R63). -/
theorem decode_jmp (ignored1 : BitVec 3) (base : Reg) (ignored2 : BitVec 6) :
    decode (0xC#4 ++ (ignored1 ++ (base.toField ++ ignored2))) = .jmp base := by
  have hop := opcodeField_append 0xC#4 (ignored1 ++ (base.toField ++ ignored2))
  have hbase := fieldBase_append 0xC#4 ignored1 base ignored2
  rw [decode_of_opcode_jmp hop, hbase]

end Sys2Proof

namespace Sys2Proof.Machine

/-! ## Execution: the link, then the new PC -/

/-- The link and the target are both made of the old PC, so the write of R7 does not move the target (R111). -/
theorem exec_jsr (off : BitVec 11) (s : State) :
    exec (.jsr off) s = .next { s with regs := s.regs.set .r7 s.pc, pc := s.pc + sext off } := by
  rw [exec, execJsr, pcRelative, State.setPc, State.setReg]

theorem exec_jmp (base : Reg) (s : State) : exec (.jmp base) s = .next { s with pc := s.reg base } := by
  rw [exec, execJmp, State.setPc]

end Sys2Proof.Machine

open Sys2Proof Sys2Proof.Machine

/-- Settles O30: JSR decodes by its select bit and offset, links through R7 and jumps relative to the old PC. -/
theorem jumpSubroutine : Obligations.JumpSubroutine := by
  unfold Obligations.JumpSubroutine
  exact fun off s => ⟨decode_jsr off, exec_jsr off s⟩

/-- Settles O32: JMP decodes by its base field alone, and only PC changes, whichever register the base is. -/
theorem jumpRegister : Obligations.JumpRegister := by
  unfold Obligations.JumpRegister
  exact fun base ignored1 ignored2 s => ⟨decode_jmp ignored1 base ignored2, exec_jmp base s⟩
end


section
/-! PROOFS. A statement of the system chapter (spec/43_system.md R122): RES. It decodes to itself with its whole word,
and its only effect is the halt, which the new run state records. -/

namespace Sys2Proof

/-- RES carries its whole word, so that the halt reason can record it (30_encoding.md R61; log 6). -/
theorem decode_of_opcode_res {w : Word} (hop : opcodeField w = 0xD#4) : decode w = .res w := by
  rw [decode, hop]; rfl

theorem decode_res (low : BitVec 12) : decode (0xD#4 ++ low) = .res (0xD#4 ++ low) :=
  decode_of_opcode_res (opcodeField_append 0xD#4 low)

end Sys2Proof

namespace Sys2Proof.Machine

/-- The fetch has left pc one above the address of the RES, so the reason records `pc - 1` (R120, R122). -/
theorem exec_res (word : Word) (s : State) :
    exec (.res word) s = .next { s with run := .halted (.illegalOpcode word (s.pc - 1)) } := by
  rw [exec, execRes, raiseCondition, State.halt, State.instrAddr]

end Sys2Proof.Machine

open Sys2Proof Sys2Proof.Machine

/-- Settles O34: every word with opcode 1101 decodes to a RES carrying it, and RES halts with that word and `pc - 1`. -/
theorem reservedOpcodeHalts : Obligations.ReservedOpcodeHalts := by
  unfold Obligations.ReservedOpcodeHalts
  exact fun low s => ⟨decode_res low, exec_res (0xD#4 ++ low) s⟩
end


section
/-! PROOFS. A statement of the trap routine chapter (spec/44_trap_routines.md R130, R132): OUT. The write of R7 that
enters the routine leaves R0, so the byte appended is that of the old R0. -/

namespace Sys2Proof.Machine

/-- TRAP links through R7 and hands over to the dispatcher, which reads the machine's own parameters (43_system.md R123). -/
theorem exec_trap (v : BitVec 8) (s : State) :
    exec (.trap v) s = trapDispatch Config.params v (s.setReg .r7 s.pc) := by
  rw [exec, execTrap, trapEntry_eq]

theorem trapDispatch_out (p : Params) (s : State) : trapDispatch p 0x21 s = trapOut s := rfl

theorem trapOut_eq (s : State) : trapOut s = .next (s.put [lowByte (s.reg .r0)]) := by
  rw [trapOut, trapReturn]

theorem exec_trap_out (s : State) :
    exec (.trap 0x21) s = .next ((s.setReg .r7 s.pc).put [lowByte (s.reg .r0)]) := by
  have hr0 : (s.setReg .r7 s.pc).reg .r0 = s.reg .r0 := by rw [State.setReg_reg, if_neg (by decide)]
  rw [exec_trap, trapDispatch_out, trapOut_eq, hr0]

end Sys2Proof.Machine

open Sys2Proof Sys2Proof.Machine

/-- Settles O36: TRAP x21 links through R7 and puts the low byte of R0, which the link has not touched. -/
theorem outWritesLowByte : Obligations.OutWritesLowByte := by
  unfold Obligations.OutWritesLowByte
  exact ⟨by decide, exec_trap_out⟩
end


section
/-! PROOFS. The encoding statements (spec/30_encoding.md R61 to R66). Two lemmas carry them: a word that agrees with the
canonical word of an instruction outside its ignored bits decodes to it, and every word so agrees with the canonical word of
what it decodes to. -/

namespace Sys2Proof

/-! ## Decoding by opcode: the opcodes not met so far -/

theorem decode_of_opcode_br {w : Word} (hop : opcodeField w = 0x0#4) :
    decode w = .br (w.getLsbD 11) (w.getLsbD 10) (w.getLsbD 9) (fieldOff9 w) := by
  rw [decode, hop]; rfl

theorem decode_of_opcode_rti {w : Word} (hop : opcodeField w = 0x8#4) : decode w = .rti := by
  rw [decode, hop]; rfl

theorem decode_of_opcode_trap {w : Word} (hop : opcodeField w = 0xF#4) : decode w = .trap (fieldVect w) := by
  rw [decode, hop]; rfl

theorem decode_br (n z p : Bool) (off : BitVec 9) :
    decode (0x0#4 ++ (BitVec.ofBool n ++ (BitVec.ofBool z ++ (BitVec.ofBool p ++ off)))) = .br n z p off := by
  have hop := opcodeField_append 0x0#4 (BitVec.ofBool n ++ (BitVec.ofBool z ++ (BitVec.ofBool p ++ off)))
  have hn := bit11_append 0x0#4 (BitVec.ofBool n) (BitVec.ofBool z ++ (BitVec.ofBool p ++ off))
  have hz := bit10_append 0x0#4 (BitVec.ofBool n) (BitVec.ofBool z) (BitVec.ofBool p ++ off)
  have hp := bit9_append 0x0#4 (BitVec.ofBool n) (BitVec.ofBool z) (BitVec.ofBool p) off
  have hoff := fieldOff9_append_br 0x0#4 (BitVec.ofBool n) (BitVec.ofBool z) (BitVec.ofBool p) off
  have hbit : ∀ b : Bool, (BitVec.ofBool b).getLsbD 0 = b := by decide
  rw [decode_of_opcode_br hop, hn, hz, hp, hoff, hbit, hbit, hbit]

theorem decode_rti (ignored : BitVec 12) : decode (0x8#4 ++ ignored) = .rti :=
  decode_of_opcode_rti (opcodeField_append 0x8#4 ignored)

theorem decode_trap (ignored : BitVec 4) (v : BitVec 8) : decode (0xF#4 ++ (ignored ++ v)) = .trap v := by
  have hop := opcodeField_append 0xF#4 (ignored ++ v)
  have hv := fieldVect_append 0xF#4 ignored v
  rw [decode_of_opcode_trap hop, hv]

/-! ## Agreement outside a mask -/

/-- Two words agree on every bit that the mask leaves clear. -/
def AgreeOff {n : Nat} (mask v w : BitVec n) : Prop := v &&& ~~~mask = w &&& ~~~mask

theorem AgreeOff.of_eq {n : Nat} {mask v w : BitVec n} (h : v = w) : AgreeOff mask v w := by rw [h, AgreeOff]

theorem AgreeOff.of_allOnes {n : Nat} (v w : BitVec n) : AgreeOff (BitVec.allOnes n) v w := by
  simp [AgreeOff]

theorem AgreeOff.eq_of_zero {n : Nat} {v w : BitVec n} (h : AgreeOff 0#n v w) : v = w := by
  simpa [AgreeOff] using h

/-- A bit that the mask leaves clear is the same in both words. -/
theorem AgreeOff.bit {mask v w : Word} (h : AgreeOff mask v w) (i : Nat) (hclear : mask.getLsbD i = false)
    (hi : i < 16 := by decide) : v.getLsbD i = w.getLsbD i := by
  have hbit := congrArg (fun u : Word => u.getLsbD i) h
  simpa [BitVec.getLsbD_and, BitVec.getLsbD_not, hclear, hi, -BitVec.getLsbD_eq_getElem] using hbit

/-- A field that the mask leaves clear is the same in both words. -/
theorem AgreeOff.field {mask v w : Word} (h : AgreeOff mask v w) (start len : Nat)
    (hclear : mask.extractLsb' start len = 0#len) (hlen : start + len ≤ 16 := by decide) :
    v.extractLsb' start len = w.extractLsb' start len := by
  apply BitVec.eq_of_getLsbD_eq
  intro i hi
  have hmask : mask.getLsbD (start + i) = false := by
    have hbit := congrArg (fun u => u.getLsbD i) hclear
    simpa [hi] using hbit
  simpa [hi] using h.bit (start + i) hmask (by omega)

/-! ## A word is its fields, most significant first (R62, R63) -/

section
variable {w : Word} {start a b : Nat} {m₁ v₁ : BitVec a} {m₂ v₂ : BitVec b}

/-- A field is its high part and its low part. -/
theorem append_eq_field (h₁ : v₁ = w.extractLsb' (start + b) a) (h₂ : v₂ = w.extractLsb' start b) :
    v₁ ++ v₂ = w.extractLsb' start (a + b) := by
  rw [h₁, h₂, BitVec.extractLsb'_append_extractLsb'_eq_extractLsb' rfl]

/-- The same outside a mask. -/
theorem AgreeOff.append_field (h₁ : AgreeOff m₁ v₁ (w.extractLsb' (start + b) a))
    (h₂ : AgreeOff m₂ v₂ (w.extractLsb' start b)) :
    AgreeOff (m₁ ++ m₂) (v₁ ++ v₂) (w.extractLsb' start (a + b)) := by
  rw [← append_eq_field rfl rfl, AgreeOff, BitVec.not_append, BitVec.and_append, BitVec.and_append, h₁, h₂]

end

variable {w : Word} {op : BitVec 4}

theorem toField_fieldDR (w : Word) : (fieldDR w).toField = w.extractLsb' 9 3 := Reg.toField_ofField _
theorem toField_fieldBase (w : Word) : (fieldBase w).toField = w.extractLsb' 6 3 := Reg.toField_ofField _
theorem toField_fieldSR2 (w : Word) : (fieldSR2 w).toField = w.extractLsb' 0 3 := Reg.toField_ofField _

/-- A bit as a field of width one. -/
theorem ofBool_getLsbD (w : Word) (i : Nat) : BitVec.ofBool (w.getLsbD i) = w.extractLsb' i 1 := by
  apply BitVec.eq_of_getLsbD_eq
  intro j hj
  obtain rfl : j = 0 := by omega
  simp

theorem wordBR_eq (hop : opcodeField w = op) :
    op ++ (BitVec.ofBool (w.getLsbD 11) ++ (BitVec.ofBool (w.getLsbD 10) ++
      (BitVec.ofBool (w.getLsbD 9) ++ fieldOff9 w))) = w :=
  (append_eq_field hop.symm (append_eq_field (ofBool_getLsbD w 11) (append_eq_field (ofBool_getLsbD w 10)
    (append_eq_field (ofBool_getLsbD w 9) rfl)))).trans BitVec.extractLsb'_eq_self

theorem wordPC9_eq (hop : opcodeField w = op) : wordPC9 op (fieldDR w) (fieldOff9 w) = w :=
  (append_eq_field hop.symm (append_eq_field (toField_fieldDR w) rfl)).trans BitVec.extractLsb'_eq_self

theorem wordBASE6_eq (hop : opcodeField w = op) : wordBASE6 op (fieldDR w) (fieldBase w) (fieldOff6 w) = w :=
  (append_eq_field hop.symm (append_eq_field (toField_fieldDR w) (append_eq_field (toField_fieldBase w)
    rfl))).trans BitVec.extractLsb'_eq_self

theorem wordOPI_eq (hop : opcodeField w = op) (hmode : w.getLsbD 5 = true) :
    wordOPI op (fieldDR w) (fieldBase w) (fieldImm5 w) = w :=
  have hbit : 1#1 = w.extractLsb' 5 1 := by rw [← ofBool_getLsbD, hmode]; rfl
  (append_eq_field hop.symm (append_eq_field (toField_fieldDR w) (append_eq_field (toField_fieldBase w)
    (append_eq_field hbit rfl)))).trans BitVec.extractLsb'_eq_self

theorem wordJSR_eq (hop : opcodeField w = op) (hselect : w.getLsbD 11 = true) :
    op ++ (1#1 ++ fieldOff11 w) = w :=
  have hbit : 1#1 = w.extractLsb' 11 1 := by rw [← ofBool_getLsbD, hselect]; rfl
  (append_eq_field hop.symm (append_eq_field hbit rfl)).trans BitVec.extractLsb'_eq_self

/-! The formats with ignored bits, each mask written as its format's fields. -/

theorem wordOPR_agreeOff (hop : opcodeField w = op) (hmode : w.getLsbD 5 = false) :
    AgreeOff 0x0018#16 (wordOPR op (fieldDR w) (fieldBase w) (fieldSR2 w) 0#2) w := by
  have hbit : 0#1 = w.extractLsb' 5 1 := by rw [← ofBool_getLsbD, hmode]; rfl
  have h : AgreeOff (0#4 ++ (0#3 ++ (0#3 ++ (0#1 ++ (BitVec.allOnes 2 ++ 0#3)))))
      (wordOPR op (fieldDR w) (fieldBase w) (fieldSR2 w) 0#2) (w.extractLsb' 0 16) :=
    .append_field (.of_eq hop.symm) (.append_field (.of_eq (toField_fieldDR w))
      (.append_field (.of_eq (toField_fieldBase w)) (.append_field (.of_eq hbit)
        (.append_field (.of_allOnes _ _) (.of_eq (toField_fieldSR2 w))))))
  rwa [BitVec.extractLsb'_eq_self] at h

theorem wordNOT_agreeOff (hop : opcodeField w = op) :
    AgreeOff 0x003F#16 (op ++ ((fieldDR w).toField ++ ((fieldBase w).toField ++ 0x3F#6))) w := by
  have h : AgreeOff (0#4 ++ (0#3 ++ (0#3 ++ BitVec.allOnes 6)))
      (op ++ ((fieldDR w).toField ++ ((fieldBase w).toField ++ 0x3F#6))) (w.extractLsb' 0 16) :=
    .append_field (.of_eq hop.symm) (.append_field (.of_eq (toField_fieldDR w))
      (.append_field (.of_eq (toField_fieldBase w)) (.of_allOnes _ _)))
  rwa [BitVec.extractLsb'_eq_self] at h

theorem wordJSRR_agreeOff (hop : opcodeField w = op) (hselect : w.getLsbD 11 = false) :
    AgreeOff 0x063F#16 (op ++ (0#1 ++ (0#2 ++ ((fieldBase w).toField ++ 0#6)))) w := by
  have hbit : 0#1 = w.extractLsb' 11 1 := by rw [← ofBool_getLsbD, hselect]; rfl
  have h : AgreeOff (0#4 ++ (0#1 ++ (BitVec.allOnes 2 ++ (0#3 ++ BitVec.allOnes 6))))
      (op ++ (0#1 ++ (0#2 ++ ((fieldBase w).toField ++ 0#6)))) (w.extractLsb' 0 16) :=
    .append_field (.of_eq hop.symm) (.append_field (.of_eq hbit) (.append_field (.of_allOnes _ _)
      (.append_field (.of_eq (toField_fieldBase w)) (.of_allOnes _ _))))
  rwa [BitVec.extractLsb'_eq_self] at h

theorem wordJMP_agreeOff (hop : opcodeField w = op) :
    AgreeOff 0x0E3F#16 (op ++ (0#3 ++ ((fieldBase w).toField ++ 0#6))) w := by
  have h : AgreeOff (0#4 ++ (BitVec.allOnes 3 ++ (0#3 ++ BitVec.allOnes 6)))
      (op ++ (0#3 ++ ((fieldBase w).toField ++ 0#6))) (w.extractLsb' 0 16) :=
    .append_field (.of_eq hop.symm) (.append_field (.of_allOnes _ _)
      (.append_field (.of_eq (toField_fieldBase w)) (.of_allOnes _ _)))
  rwa [BitVec.extractLsb'_eq_self] at h

theorem wordTRAP_agreeOff (hop : opcodeField w = op) : AgreeOff 0x0F00#16 (op ++ (0#4 ++ fieldVect w)) w := by
  have h : AgreeOff (0#4 ++ (BitVec.allOnes 4 ++ 0#8)) (op ++ (0#4 ++ fieldVect w)) (w.extractLsb' 0 16) :=
    .append_field (.of_eq hop.symm) (.append_field (.of_allOnes _ _) (.of_eq rfl))
  rwa [BitVec.extractLsb'_eq_self] at h

theorem wordRTI_agreeOff (hop : opcodeField w = op) : AgreeOff 0x0FFF#16 (op ++ 0#12) w := by
  have h : AgreeOff (0#4 ++ BitVec.allOnes 12) (op ++ 0#12) (w.extractLsb' 0 16) :=
    .append_field (.of_eq hop.symm) (.of_allOnes _ _)
  rwa [BitVec.extractLsb'_eq_self] at h

/-! ## Every word agrees with the canonical word of what it decodes to -/

/-- The opcode map splits the words in sixteen (R61). -/
theorem encode_decode (w : Word) :
    (decode w).wellFormed = true ∧ AgreeOff (decode w).ignoredBits (encode (decode w)) w := by
  obtain ⟨n, hop⟩ : ∃ n : Fin 16, opcodeField w = BitVec.ofFin n := ⟨(opcodeField w).toFin, rfl⟩
  fin_cases n
  · rw [decode_of_opcode_br hop]; exact ⟨rfl, .of_eq (wordBR_eq hop)⟩
  · rw [decode_of_opcode_add hop]
    cases hmode : w.getLsbD 5 with
    | true => exact ⟨rfl, .of_eq (wordOPI_eq hop hmode)⟩
    | false => exact ⟨rfl, wordOPR_agreeOff hop hmode⟩
  · rw [decode_of_opcode_ld hop]; exact ⟨rfl, .of_eq (wordPC9_eq hop)⟩
  · rw [decode_of_opcode_st hop]; exact ⟨rfl, .of_eq (wordPC9_eq hop)⟩
  · rw [decode_of_opcode_jsr hop]
    cases hselect : w.getLsbD 11 with
    | true => exact ⟨rfl, .of_eq (wordJSR_eq hop hselect)⟩
    | false => exact ⟨rfl, wordJSRR_agreeOff hop hselect⟩
  · rw [decode_of_opcode_and hop]
    cases hmode : w.getLsbD 5 with
    | true => exact ⟨rfl, .of_eq (wordOPI_eq hop hmode)⟩
    | false => exact ⟨rfl, wordOPR_agreeOff hop hmode⟩
  · rw [decode_of_opcode_ldr hop]; exact ⟨rfl, .of_eq (wordBASE6_eq hop)⟩
  · rw [decode_of_opcode_str hop]; exact ⟨rfl, .of_eq (wordBASE6_eq hop)⟩
  · rw [decode_of_opcode_rti hop]; exact ⟨rfl, wordRTI_agreeOff hop⟩
  · rw [decode_of_opcode_not hop]; exact ⟨rfl, wordNOT_agreeOff hop⟩
  · rw [decode_of_opcode_ldi hop]; exact ⟨rfl, .of_eq (wordPC9_eq hop)⟩
  · rw [decode_of_opcode_sti hop]; exact ⟨rfl, .of_eq (wordPC9_eq hop)⟩
  · rw [decode_of_opcode_jmp hop]; exact ⟨rfl, wordJMP_agreeOff hop⟩
  · rw [decode_of_opcode_res hop]; exact ⟨beq_iff_eq.2 hop, .of_eq rfl⟩
  · rw [decode_of_opcode_lea hop]; exact ⟨rfl, .of_eq (wordPC9_eq hop)⟩
  · rw [decode_of_opcode_trap hop]; exact ⟨rfl, wordTRAP_agreeOff hop⟩

/-! ## A word that agrees with a canonical word decodes to its instruction -/

section
variable {mask u v : Word} (h : AgreeOff mask v u)
include h

theorem AgreeOff.opcodeField (hclear : mask.extractLsb' 12 4 = 0#4) : opcodeField v = opcodeField u :=
  h.field 12 4 hclear

theorem AgreeOff.fieldDR (hclear : mask.extractLsb' 9 3 = 0#3) : fieldDR v = fieldDR u :=
  congrArg Reg.ofField (h.field 9 3 hclear)

theorem AgreeOff.fieldBase (hclear : mask.extractLsb' 6 3 = 0#3) : fieldBase v = fieldBase u :=
  congrArg Reg.ofField (h.field 6 3 hclear)

theorem AgreeOff.fieldSR2 (hclear : mask.extractLsb' 0 3 = 0#3) : fieldSR2 v = fieldSR2 u :=
  congrArg Reg.ofField (h.field 0 3 hclear)

end

/-- Without ignored bits the word is the canonical one; with them, each bit and field that the decoder reads lies outside
them (R65). -/
theorem decode_of_agreeOff_encode {i : Instr} {v : Word} (hwf : i.wellFormed = true)
    (h : AgreeOff i.ignoredBits v (encode i)) : decode v = i := by
  cases i with
  | br n z p off => rw [h.eq_of_zero]; exact decode_br n z p off
  | addReg dr sr1 sr2 =>
    change AgreeOff 0x0018#16 v (wordOPR 0x1#4 dr sr1 sr2 0#2) at h
    obtain ⟨hop, hmode, hdr, hsr1, hsr2⟩ := wordOPR_fields 0x1#4 dr sr1 sr2 0#2
    rw [decode_of_opcode_add ((h.opcodeField rfl).trans hop), h.bit 5 rfl, hmode, h.fieldDR rfl, h.fieldBase rfl,
      h.fieldSR2 rfl, hdr, hsr1, hsr2]
    rfl
  | addImm dr sr1 imm => rw [h.eq_of_zero]; exact decode_addImm dr sr1 imm
  | ld dr off => rw [h.eq_of_zero]; exact decode_wordPC9 decode_of_opcode_ld dr off
  | st sr off => rw [h.eq_of_zero]; exact decode_wordPC9 decode_of_opcode_st sr off
  | jsr off => rw [h.eq_of_zero]; exact decode_jsr off
  | jsrr base =>
    change AgreeOff 0x063F#16 v (0x4#4 ++ (0#1 ++ (0#2 ++ (base.toField ++ 0#6)))) at h
    have hop := (h.opcodeField rfl).trans (opcodeField_append 0x4#4 _)
    have hselect := (h.bit 11 rfl).trans (bit11_append 0x4#4 0#1 _)
    have hbase := (h.fieldBase rfl).trans (fieldBase_append_jsrr 0x4#4 0#1 0#2 base 0#6)
    rw [decode_of_opcode_jsr hop, hselect, hbase]
    rfl
  | andReg dr sr1 sr2 =>
    change AgreeOff 0x0018#16 v (wordOPR 0x5#4 dr sr1 sr2 0#2) at h
    obtain ⟨hop, hmode, hdr, hsr1, hsr2⟩ := wordOPR_fields 0x5#4 dr sr1 sr2 0#2
    rw [decode_of_opcode_and ((h.opcodeField rfl).trans hop), h.bit 5 rfl, hmode, h.fieldDR rfl, h.fieldBase rfl,
      h.fieldSR2 rfl, hdr, hsr1, hsr2]
    rfl
  | andImm dr sr1 imm => rw [h.eq_of_zero]; exact decode_andImm dr sr1 imm
  | ldr dr base off => rw [h.eq_of_zero]; exact decode_wordBASE6 decode_of_opcode_ldr dr base off
  | str sr base off => rw [h.eq_of_zero]; exact decode_wordBASE6 decode_of_opcode_str sr base off
  | rti => exact decode_of_opcode_rti (h.opcodeField rfl)
  | not dr sr =>
    change AgreeOff 0x003F#16 v (0x9#4 ++ (dr.toField ++ (sr.toField ++ 0x3F#6))) at h
    have hop := (h.opcodeField rfl).trans (opcodeField_append 0x9#4 _)
    have hdr := (h.fieldDR rfl).trans (fieldDR_append 0x9#4 dr _)
    have hsr := (h.fieldBase rfl).trans (fieldBase_append 0x9#4 dr.toField sr 0x3F#6)
    rw [decode_of_opcode_not hop, hdr, hsr]
  | ldi dr off => rw [h.eq_of_zero]; exact decode_wordPC9 decode_of_opcode_ldi dr off
  | sti sr off => rw [h.eq_of_zero]; exact decode_wordPC9 decode_of_opcode_sti sr off
  | jmp base =>
    change AgreeOff 0x0E3F#16 v (0xC#4 ++ (0#3 ++ (base.toField ++ 0#6))) at h
    have hop := (h.opcodeField rfl).trans (opcodeField_append 0xC#4 _)
    have hbase := (h.fieldBase rfl).trans (fieldBase_append 0xC#4 0#3 base 0#6)
    rw [decode_of_opcode_jmp hop, hbase]
  | res word => rw [h.eq_of_zero]; exact decode_of_opcode_res (beq_iff_eq.1 hwf)
  | lea dr off => rw [h.eq_of_zero]; exact decode_wordPC9 decode_of_opcode_lea dr off
  | trap vect =>
    change AgreeOff 0x0F00#16 v (0xF#4 ++ (0#4 ++ vect)) at h
    have hop := (h.opcodeField rfl).trans (opcodeField_append 0xF#4 _)
    have hvect := (h.field 0 8 rfl).trans (fieldVect_append 0xF#4 0#4 vect)
    rw [decode_of_opcode_trap hop, fieldVect, hvect]

/-! ## The opcode table reads the opcode, bit 11 and bit 5 -/

/-- The bits that some row of the table looks at. -/
def rowBits (w : Word) : Word := w &&& 0xF820#16

theorem rowBits_agreeOff (w : Word) : AgreeOff 0x07DF#16 (rowBits w) w := by
  rw [AgreeOff, rowBits, BitVec.and_assoc]
  rfl

theorem holds_rowBits (w : Word) : ∀ r ∈ opcodeTable, r.holds (rowBits w) = r.holds w := by
  have hmask : ∀ r ∈ opcodeTable, 0xF820#16 &&& r.mask = r.mask := by decide
  intro r hr
  rw [OpcodeRow.holds, OpcodeRow.holds, rowBits, BitVec.and_assoc, hmask r hr]

/-- The row of a word's instruction depends on these bits alone. -/
theorem row_decode_rowBits (w : Word) : (decode (rowBits w)).row = (decode w).row := by
  have hop := (rowBits_agreeOff w).opcodeField rfl
  have h5 := (rowBits_agreeOff w).bit 5 rfl
  have h11 := (rowBits_agreeOff w).bit 11 rfl
  rw [decode, decode, hop, h5, h11]
  split
  case h_2 | h_5 | h_6 => split <;> rfl -- the opcodes with two rows: ADD by bit 5, JSR by bit 11, AND by bit 5
  all_goals rfl

theorem rowBits_eq (w : Word) :
    rowBits w = opcodeField w ++ (w.extractLsb' 11 1 ++ (0#5 ++ (w.extractLsb' 5 1 ++ 0#5))) := by
  have h := rowBits_agreeOff w
  have hclear : ∀ start, (0xF820#16).extractLsb' start 5 = 0#5 → 0#5 = (rowBits w).extractLsb' start 5 := by
    intro start h0
    rw [rowBits, BitVec.extractLsb'_and, h0, BitVec.and_zero]
  have hfields : opcodeField w ++ (w.extractLsb' 11 1 ++ (0#5 ++ (w.extractLsb' 5 1 ++ 0#5))) =
      (rowBits w).extractLsb' 0 16 :=
    append_eq_field (h.opcodeField rfl).symm (append_eq_field (h.field 11 1 rfl).symm
      (append_eq_field (hclear 6 rfl) (append_eq_field (h.field 5 1 rfl).symm (hclear 0 rfl))))
  rw [hfields, BitVec.extractLsb'_eq_self]

theorem filter_opcodeTable_of_rowBits : ∀ (op : BitVec 4) (b11 b5 : BitVec 1),
    opcodeTable.filter (fun r => r.holds (op ++ (b11 ++ (0#5 ++ (b5 ++ 0#5))))) =
      [(decode (op ++ (b11 ++ (0#5 ++ (b5 ++ 0#5))))).row] := by decide

end Sys2Proof

open Sys2Proof

/-- Settles O2: the canonical word agrees with itself. -/
theorem decodeEncodeRoundTrip : Obligations.DecodeEncodeRoundTrip := by
  unfold Obligations.DecodeEncodeRoundTrip
  exact fun i hwf => decode_of_agreeOff_encode hwf (.of_eq rfl)

/-- Settles O3: by the sixteen opcodes, each word being the fields of its format. -/
theorem encodeKeepsDecodedBits : Obligations.EncodeKeepsDecodedBits := by
  unfold Obligations.EncodeKeepsDecodedBits
  exact encode_decode

/-- Settles O4: both words agree with the canonical word of the first one's instruction. -/
theorem ignoredBitsDecodeAlike : Obligations.IgnoredBitsDecodeAlike := by
  unfold Obligations.IgnoredBitsDecodeAlike
  intro w v h
  obtain ⟨hwf, hw⟩ := encode_decode w
  exact decode_of_agreeOff_encode hwf (h.symm.trans hw.symm)

/-- Settles O5: both sides depend on the opcode, bit 11 and bit 5 only, of which there are 64 values. -/
theorem eachWordHasOneRow : Obligations.EachWordHasOneRow := by
  unfold Obligations.EachWordHasOneRow
  intro w
  rw [← row_decode_rowBits w, ← List.filter_congr (holds_rowBits w), rowBits_eq]
  exact filter_opcodeTable_of_rowBits _ _ _

/-- Settles O1: twelve runs of the decoder. -/
theorem decodesSpecWords : Obligations.DecodesSpecWords := by
  unfold Obligations.DecodesSpecWords
  decide
end


section
/-! PROOFS. What any instruction can do, said once: how a read through the Memory Unit, a trap routine and an instruction
end, and what they keep (spec/10_state.md R21, R25, R30; 60_exceptions.md R150, R155). -/

namespace Sys2Proof.Machine

variable {s t u : State}

/-! ## A poll, field by field -/

@[simp] theorem latchKey_output (key : Option Byte) (s : State) : (latchKey key s).output = s.output := by
  cases key <;> rfl
@[simp] theorem latchKey_input (key : Option Byte) (s : State) : (latchKey key s).input = s.input := by
  cases key <;> rfl
@[simp] theorem latchKey_pollAnswers (key : Option Byte) (s : State) :
    (latchKey key s).pollAnswers = s.pollAnswers := by
  cases key <;> rfl
@[simp] theorem latchKey_interruptRequested (key : Option Byte) (s : State) :
    (latchKey key s).interruptRequested = s.interruptRequested := by
  cases key <;> rfl
@[simp] theorem latchKey_requestIn (key : Option Byte) (s : State) : (latchKey key s).requestIn = s.requestIn := by
  cases key <;> rfl

@[simp] theorem State.pollResult_output (s : State) : s.pollResult.2.output = s.output := by
  obtain ⟨l, n, h | ⟨c, rest, hi, h⟩⟩ := s.pollResult_cases <;> rw [h]
@[simp] theorem State.pollResult_mem (s : State) : s.pollResult.2.mem = s.mem := by
  obtain ⟨l, n, h | ⟨c, rest, hi, h⟩⟩ := s.pollResult_cases <;> rw [h]
@[simp] theorem State.pollResult_interruptRequested (s : State) :
    s.pollResult.2.interruptRequested = s.interruptRequested := by
  obtain ⟨l, n, h | ⟨c, rest, hi, h⟩⟩ := s.pollResult_cases <;> rw [h]
@[simp] theorem State.pollResult_requestIn (s : State) : s.pollResult.2.requestIn = s.requestIn := by
  obtain ⟨l, n, h | ⟨c, rest, hi, h⟩⟩ := s.pollResult_cases <;> rw [h]

@[simp] theorem State.afterPoll_output (s : State) : s.afterPoll.output = s.output := by simp [State.afterPoll]
@[simp] theorem State.afterPoll_interruptRequested (s : State) :
    s.afterPoll.interruptRequested = s.hostTurn.interruptRequested := by simp [State.afterPoll]
@[simp] theorem State.afterPoll_requestIn (s : State) : s.afterPoll.requestIn = s.hostTurn.requestIn := by
  simp [State.afterPoll]

/-- What a part of a cycle that the request abandons has done: it has halted on it, with what it did before standing. -/
structure Abandoned (s t : State) : Prop extends HostFrame s t where
  run : t.run = .halted .interruptRequested
  requested : t.interruptRequested = true

theorem HostFrame.abandoned (h : HostFrame s u) : Abandoned s u.terminate :=
  { h.trans (HostFrame.terminate u) with run := rfl, requested := rfl }

/-! ## Reads through the Memory Unit -/

/-- What one read, or one after another, has done: nothing to the run state or the output, unless it is abandoned. -/
def ReadsFrom (s : State) : Ran Word → Prop
  | .done _ u => HostFrame s u ∧ u.run = s.run ∧ u.output = s.output
  | .abandoned u => Abandoned s u ∧ u.output = s.output
  | .stuck _ => False

theorem readsFrom_memRead (a : Word) (s : State) : ReadsFrom s (memRead a s) := by
  by_cases ha : a = kbsr
  · rw [ha]
    by_cases hdue : s.noRequestDue
    · rw [memRead_kbsr_of_noRequestDue hdue]
      exact ⟨HostFrame.afterPoll s, s.afterPoll_run, s.afterPoll_output⟩
    · rw [memRead_kbsr_of_requestDue hdue, ← State.terminate_hostTurn]
      exact ⟨(HostFrame.hostTurn s).abandoned, s.hostTurn_output⟩
  · rw [memRead_of_ne ha]
    exact ⟨HostFrame.refl s, rfl, rfl⟩

theorem ReadsFrom.bind {r : Ran Word} {k : Word → State → Ran Word} (h : ReadsFrom s r)
    (hk : ∀ w u, ReadsFrom u (k w u)) : ReadsFrom s (r.bind k) := by
  cases r with
  | done w u =>
    obtain ⟨hframe, hrun, hout⟩ := h
    have hread := hk w u
    rw [Ran.bind_done]
    cases hr : k w u with
    | done v x =>
      rw [hr] at hread
      obtain ⟨hframe', hrun', hout'⟩ := hread
      exact ⟨hframe.trans hframe', hrun'.trans hrun, hout'.trans hout⟩
    | abandoned x =>
      rw [hr] at hread
      obtain ⟨hab, hout'⟩ := hread
      exact ⟨⟨hframe.trans hab.toHostFrame, hab.run, hab.requested⟩, hout'.trans hout⟩
    | stuck f => rw [hr] at hread; exact hread
  | abandoned u => exact h
  | stuck f => exact h

/-- A load that answers a next state has defined DR after its reads, or one of them was abandoned. -/
theorem ReadsFrom.load_next {r : Ran Word} {dr : Reg} (h : ReadsFrom s r) (hn : r.toNext (defineReg dr) = .next t) :
    (∃ w u, HostFrame s u ∧ u.run = s.run ∧ u.output = s.output ∧ t = defineReg dr w u) ∨
      (Abandoned s t ∧ t.output = s.output) := by
  rcases Ran.toNext_eq_next hn with ⟨w, u, rfl, rfl⟩ | rfl
  · exact .inl ⟨w, u, h.1, h.2.1, h.2.2, rfl⟩
  · exact .inr h

/-- STI has stored SR where its pointer read says, or that read was abandoned. -/
theorem sti_next {sr : Reg} {off : BitVec 9} (h : exec (.sti sr off) s = .next t) :
    (∃ ea u, indirect off s = .done ea u ∧ HostFrame s u ∧ u.run = s.run ∧ u.output = s.output ∧
      t = u.memWrite ea (s.reg sr)) ∨
      (indirect off s = .abandoned t ∧ Abandoned s t ∧ t.output = s.output) := by
  have hread := readsFrom_memRead (pcRelative off s) s
  rcases Ran.toNext_eq_next (h : (indirect off s).toNext _ = _) with ⟨ea, u, hr, rfl⟩ | hr
  · rw [show memRead (pcRelative off s) s = .done ea u from hr] at hread
    obtain ⟨hframe, hrun, hout⟩ := hread
    exact .inl ⟨ea, u, hr, hframe, hrun, hout, by simp [State.reg, hframe.regs]⟩
  · rw [show memRead (pcRelative off s) s = .abandoned t from hr] at hread
    exact .inr ⟨hr, hread⟩

/-! ## Trap routines -/

/-- TrapDispatch (44_trap_routines.md R130), read in order. -/
theorem trapDispatch_eq (p : Params) (v : BitVec 8) (s : State) :
    trapDispatch p v s =
      if v = 0x20 then trapGetc p s else if v = 0x21 then trapOut s else if v = 0x22 then trapPuts p s
      else if v = 0x23 then trapIn p s else if v = 0x24 then trapPutsp p s else if v = 0x25 then trapHalt p s
      else trapUnknown v s := by
  by_cases h20 : v = 0x20
  · subst h20; rfl
  by_cases h21 : v = 0x21
  · subst h21; rfl
  by_cases h22 : v = 0x22
  · subst h22; rfl
  by_cases h23 : v = 0x23
  · subst h23; rfl
  by_cases h24 : v = 0x24
  · subst h24; rfl
  by_cases h25 : v = 0x25
  · subst h25; rfl
  rw [if_neg h20, if_neg h21, if_neg h22, if_neg h23, if_neg h24, if_neg h25, trapDispatch]
  have hne : ∀ c : BitVec 8, v ≠ c → v.toNat ≠ c.toNat := fun c h e => h (BitVec.eq_of_toNat_eq e)
  split
  · exact absurd ‹_› (hne 0x20 h20)
  · exact absurd ‹_› (hne 0x21 h21)
  · exact absurd ‹_› (hne 0x22 h22)
  · exact absurd ‹_› (hne 0x23 h23)
  · exact absurd ‹_› (hne 0x24 h24)
  · exact absurd ‹_› (hne 0x25 h25)
  · rfl

/-- A console read that answers a next state has ended, or the request abandoned it. -/
theorem consoleGet_next {eof : Option Word} {k : Word → State → State} (h : (consoleGet eof s).toNext k = .next t) :
    (∃ c u, HostFrame s u ∧ u.run = s.run ∧ u.mem = s.mem ∧ u.output = s.output ∧ t = k c u) ∨
      (Abandoned s t ∧ t.mem = s.mem ∧ t.output = s.output) := by
  rcases Ran.toNext_eq_next h with ⟨c, u, hr, rfl⟩ | hr
  · obtain ⟨hframe, hrun, hmem, hout⟩ := consoleGet_done_frame hr
    exact .inl ⟨c, u, hframe, hrun, hmem, hout, rfl⟩
  · obtain rfl := consoleGet_abandoned hr
    exact .inr ⟨(HostFrame.hostTurn s).abandoned, s.hostTurn_mem, s.hostTurn_output⟩

/-- A string walk that answers a next state has ended, or the request abandoned it; in plain mode it writes no memory. -/
theorem stringWalk_next {mode : StringReadMode} {emit : Word → List Byte} {n : Nat} {a : Word}
    (h : (stringWalk mode emit n a s).toNext (fun _ s' => trapReturn s') = .next t) :
    ((HostFrame s t ∧ t.run = s.run) ∨ Abandoned s t) ∧ (mode = .plain → t.mem = s.mem) := by
  rcases Ran.toNext_eq_next h with ⟨_, u, hr, rfl⟩ | hr
  · obtain ⟨hframe, hrun, hmem⟩ := stringWalk_done_frame hr
    exact ⟨.inl ⟨hframe, hrun⟩, hmem⟩
  · obtain ⟨hframe, hrun, hreq, hmem⟩ := stringWalk_abandoned_frame hr
    exact ⟨.inr ⟨hframe, hrun, hreq⟩, hmem⟩

/-- What the routine of a vector has done when it answers a next state, `s` being the state it is entered in. -/
inductive TrapNext (v : BitVec 8) (s t : State) : Prop
  /-- GETC or IN has read a word into R0. -/
  | read {c : Word} {u : State} (hv : v = 0x20 ∨ v = 0x23) (frame : HostFrame s u) (run : u.run = s.run)
      (mem : u.mem = s.mem) (output : v = 0x20 → u.output = s.output) (ht : t = defineReg .r0 c u)
  /-- PUTS or PUTSP has met its zero word. -/
  | walked (hv : v = 0x22 ∨ v = 0x24) (frame : HostFrame s t) (run : t.run = s.run)
      (mem : Config.params.stringReadMode = .plain → t.mem = s.mem)
  /-- The request abandoned one of these four. -/
  | abandoned (hv : v ∈ [0x20#8, 0x22, 0x23, 0x24]) (ab : Abandoned s t)
      (mem : (v ≠ 0x22 ∧ v ≠ 0x24) ∨ Config.params.stringReadMode = .plain → t.mem = s.mem)
      (output : v = 0x20 → t.output = s.output)
  | out (hv : v = 0x21) (ht : t = s.put [lowByte (s.reg .r0)])
  | halt (hv : v = 0x25) (ht : t = (s.put Config.params.haltNotice).halt .haltTrap)
  | unknown (hv : v.toNat < 0x20 ∨ 0x25 < v.toNat) (ht : t = s.halt (.illegalTrapVector v (s.pc - 1)))

theorem trapGetc_next (h : trapGetc Config.params s = .next t) : TrapNext 0x20 s t := by
  rcases consoleGet_next h with ⟨c, u, hframe, hrun, hmem, hout, ht⟩ | ⟨hab, hmem, hout⟩
  · exact .read (.inl rfl) hframe hrun hmem (fun _ => hout) ht
  · exact .abandoned (by decide) hab (fun _ => hmem) (fun _ => hout)

theorem trapIn_next (h : trapIn Config.params s = .next t) : TrapNext 0x23 s t := by
  have hput := HostFrame.put s Config.params.inPrompt
  rcases consoleGet_next h with ⟨c, u, hframe, hrun, hmem, -, ht⟩ | ⟨hab, hmem, -⟩
  · exact .read (.inr rfl) (hput.trans (hframe.trans (HostFrame.put u [lowByte c]))) hrun hmem
      (fun hv => absurd hv (by decide)) ht
  · exact .abandoned (by decide) ⟨hput.trans hab.toHostFrame, hab.run, hab.requested⟩ (fun _ => hmem)
      (fun hv => absurd hv (by decide))

/-- PUTS and PUTSP are one walk with another emission. -/
theorem walk_trapNext {v : BitVec 8} (hv : v = 0x22 ∨ v = 0x24) {emit : Word → List Byte} {n : Nat} {a : Word}
    (h : (stringWalk Config.params.stringReadMode emit n a s).toNext (fun _ s' => trapReturn s') = .next t) :
    TrapNext v s t := by
  obtain ⟨⟨hframe, hrun⟩ | hab, hmem⟩ := stringWalk_next h
  · exact .walked hv hframe hrun hmem
  · rcases hv with rfl | rfl
    · exact .abandoned (by decide) hab (fun hm => hmem (by simpa using hm)) (fun hv => absurd hv (by decide))
    · exact .abandoned (by decide) hab (fun hm => hmem (by simpa using hm)) (fun hv => absurd hv (by decide))

theorem trapDispatch_next {v : BitVec 8} (h : trapDispatch Config.params v s = .next t) : TrapNext v s t := by
  rw [trapDispatch_eq] at h
  split at h
  next hv => rw [hv]; exact trapGetc_next h
  split at h
  next hv => cases h; exact .out hv rfl
  split at h
  next hv => exact walk_trapNext (.inl hv) h
  split at h
  next hv => rw [hv]; exact trapIn_next h
  split at h
  next hv => exact walk_trapNext (.inr hv) h
  split at h
  next hv => cases h; exact .halt hv rfl
  · cases h
    exact .unknown (by bv_omega) rfl

theorem exec_trap_next {v : BitVec 8} (h : exec (.trap v) s = .next t) : TrapNext v (s.setReg .r7 s.pc) t :=
  trapDispatch_next (exec_trap v s ▸ h)

/-! ## Instructions -/

/-- What every instruction keeps: the canonical form of memory and the promises to the host (R30). -/
structure Kept (s t : State) : Prop where
  wf : s.mem.wf → t.mem.wf
  output : s.output <+: t.output
  input : t.input <:+ s.input
  request : s.interruptRequested = true → t.interruptRequested = true

theorem HostFrame.kept (h : HostFrame s t) : Kept s t := ⟨h.wf, h.output, h.input, h.request⟩

theorem Kept.of_eq (hmem : t.mem = s.mem) (hout : t.output = s.output) (hin : t.input = s.input)
    (hreq : t.interruptRequested = s.interruptRequested) : Kept s t :=
  ⟨fun h => hmem ▸ h, by rw [hout], by rw [hin], fun h => hreq.trans h⟩

theorem Kept.refl (s : State) : Kept s s := (HostFrame.refl s).kept

theorem Kept.trans (h : Kept s t) (k : Kept t u) : Kept s u :=
  ⟨k.wf ∘ h.wf, h.output.trans k.output, k.input.trans h.input, k.request ∘ h.request⟩

theorem Kept.memWrite (s : State) (a v : Word) : Kept s (s.memWrite a v) :=
  ⟨fun h => Memory.wf_poke h a v, List.prefix_refl _, List.suffix_refl _, id⟩

theorem Kept.defineReg (dr : Reg) (v : Word) (s : State) : Kept s (defineReg dr v s) := by
  rw [defineReg_eq]
  exact .of_eq rfl rfl rfl rfl

/-- The register whose new value a flag writer calls setcc on (10_state.md R25). -/
def flagReg : Instr → Option Reg
  | .addReg dr _ _ | .addImm dr _ _ | .andReg dr _ _ | .andImm dr _ _ | .not dr _ => some dr
  | .ld dr _ | .ldi dr _ | .ldr dr _ _ | .lea dr _ => some dr
  | .trap v => if v = 0x20 ∨ v = 0x23 then some .r0 else none
  | .br _ _ _ _ | .st _ _ | .str _ _ _ | .sti _ _ | .jsr _ | .jsrr _ | .jmp _ | .rti | .res _ => none

/-- The instruction that raises a halt reason from the state after its fetch (60_exceptions.md R150). -/
def HaltReason.RaisedBy (why : HaltReason) (i : Instr) (s : State) : Prop :=
  match why with
  | .haltTrap => i = .trap 0x25
  | .illegalOpcode w a => i = .res w ∧ a = s.pc - 1
  | .illegalTrapVector v a => i = .trap v ∧ a = s.pc - 1 ∧ (v.toNat < 0x20 ∨ 0x25 < v.toNat)
  | .interruptRequested => False

/-- What an instruction has done when it answers a next state. -/
inductive ExecNext (i : Instr) (s t : State) : Prop
  /-- A flag writer has defined its register. -/
  | defines {dr : Reg} {v : Word} {u : State} (hi : flagReg i = some dr) (kept : Kept s u) (run : u.run = s.run)
      (ht : t = defineReg dr v u)
  /-- Any other instruction goes on. -/
  | goesOn (hi : flagReg i = none) (kept : Kept s t) (run : t.run = s.run) (cond : t.cond = s.cond)
  | halts {why : HaltReason} (hi : flagReg i = none) (kept : Kept s t) (run : t.run = .halted why)
      (raised : why.RaisedBy i s) (cond : t.cond = s.cond)
  | abandoned (kept : Kept s t) (run : t.run = .halted .interruptRequested) (requested : t.interruptRequested = true)
      (cond : t.cond = s.cond)

theorem ExecNext.of_abandoned {i : Instr} (h : Abandoned s t) : ExecNext i s t :=
  .abandoned h.kept h.run h.requested h.cond

theorem ExecNext.of_load {i : Instr} {dr : Reg} {r : Ran Word} (hdr : flagReg i = some dr) (hread : ReadsFrom s r)
    (h : r.toNext (defineReg dr) = .next t) : ExecNext i s t := by
  rcases hread.load_next h with ⟨w, u, hframe, hrun, -, ht⟩ | ⟨hab, -⟩
  · exact .defines hdr hframe.kept hrun ht
  · exact .of_abandoned hab

theorem ExecNext.of_trap {v : BitVec 8} (h : TrapNext v (s.setReg .r7 s.pc) t) : ExecNext (.trap v) s t := by
  have hentry : Kept s (s.setReg .r7 s.pc) := .of_eq rfl rfl rfl rfl
  have hnone : v ≠ 0x20 → v ≠ 0x23 → flagReg (.trap v) = none := fun h0 h3 =>
    if_neg (not_or.2 ⟨h0, h3⟩)
  cases h with
  | read hv frame run mem output ht => exact .defines (if_pos hv) (hentry.trans frame.kept) run ht
  | walked hv frame run mem =>
    exact .goesOn (by rcases hv with rfl | rfl <;> rfl) (hentry.trans frame.kept) run frame.cond
  | abandoned hv ab mem output => exact .abandoned (hentry.trans ab.kept) ab.run ab.requested ab.cond
  | out hv ht =>
    subst hv ht
    exact .goesOn rfl (hentry.trans (HostFrame.put _ _).kept) rfl rfl
  | halt hv ht =>
    subst hv ht
    exact .halts (why := .haltTrap) rfl (hentry.trans ⟨id, List.prefix_append _ _, List.suffix_refl _, id⟩) rfl rfl rfl
  | unknown hv ht =>
    subst ht
    have h0 : v ≠ 0x20 := by bv_omega
    have h3 : v ≠ 0x23 := by bv_omega
    exact .halts (hnone h0 h3) (hentry.trans (.of_eq rfl rfl rfl rfl)) rfl ⟨rfl, rfl, hv⟩ rfl

/-- What an instruction can do, by its constructors. -/
theorem exec_next {i : Instr} (h : exec i s = .next t) : ExecNext i s t := by
  have hsame : Kept s s := Kept.refl s
  cases i with
  | br n z p off =>
    cases h
    split
    · exact .goesOn rfl (.of_eq rfl rfl rfl rfl) rfl rfl
    · exact .goesOn rfl hsame rfl rfl
  | addReg dr sr1 sr2 => cases h; exact .defines rfl hsame rfl rfl
  | addImm dr sr1 imm => cases h; exact .defines rfl hsame rfl rfl
  | ld dr off => exact .of_load rfl (readsFrom_memRead _ s) h
  | st sr off => cases h; exact .goesOn rfl (Kept.memWrite _ _ _) rfl rfl
  | jsr off => cases h; exact .goesOn rfl (.of_eq rfl rfl rfl rfl) rfl rfl
  | jsrr base => cases h; exact .goesOn rfl (.of_eq rfl rfl rfl rfl) rfl rfl
  | andReg dr sr1 sr2 => cases h; exact .defines rfl hsame rfl rfl
  | andImm dr sr1 imm => cases h; exact .defines rfl hsame rfl rfl
  | ldr dr base off => exact .of_load rfl (readsFrom_memRead _ s) h
  | str sr base off => cases h; exact .goesOn rfl (Kept.memWrite _ _ _) rfl rfl
  | rti => cases h; exact .goesOn rfl hsame rfl rfl
  | not dr sr => cases h; exact .defines rfl hsame rfl rfl
  | ldi dr off => exact .of_load rfl ((readsFrom_memRead _ s).bind readsFrom_memRead) h
  | sti sr off =>
    rcases sti_next h with ⟨ea, u, -, hframe, hrun, -, rfl⟩ | ⟨-, hab, -⟩
    · exact .goesOn rfl (hframe.kept.trans (Kept.memWrite _ _ _)) hrun hframe.cond
    · exact .of_abandoned hab
  | jmp base => cases h; exact .goesOn rfl (.of_eq rfl rfl rfl rfl) rfl rfl
  | res word =>
    cases h
    exact .halts (why := .illegalOpcode word (s.pc - 1)) rfl (.of_eq rfl rfl rfl rfl) rfl
      ⟨rfl, rfl⟩ rfl
  | lea dr off => cases h; exact .defines rfl hsame rfl rfl
  | trap vect => exact .of_trap (exec_trap_next h)

theorem ExecNext.kept {i : Instr} (h : ExecNext i s t) : Kept s t := by
  cases h with
  | defines hi kept run ht => rw [ht]; exact kept.trans (Kept.defineReg _ _ _)
  | goesOn hi kept run cond => exact kept
  | halts hi kept run raised cond => exact kept
  | abandoned kept run requested cond => exact kept

/-! ## The fetch and the cycle -/

/-- What a cycle keeps, its fetch, a poll or an abandoned cycle among it. -/
theorem step_kept (h : step s = .next t) : Kept s t := by
  have hturn := (HostFrame.hostTurn s).kept
  obtain ⟨-, ⟨-, rfl⟩ | ⟨-, hf | ⟨w, u, hf, hexec⟩⟩⟩ := step_cases h
  · exact (HostFrame.hostTurn s).abandoned.kept
  · rcases Ran.bind_eq_abandoned hf with hr | ⟨a, u, -, hr⟩
    · obtain ⟨-, -, rfl⟩ := memRead_abandoned hr
      exact hturn.trans (HostFrame.hostTurn _).abandoned.kept
    · cases hr
  · obtain ⟨x, hr, rfl⟩ := fetch_done hf
    have hpc : Kept x (x.setPc (s.hostTurn.pc + 1)) := .of_eq rfl rfl rfl rfl
    exact hturn.trans ((memRead_done_frame hr).1.kept.trans (hpc.trans (exec_next hexec).kept))

end Sys2Proof.Machine

open Sys2Proof Sys2Proof.Machine

/-- Settles O53: the first part of what every cycle keeps. -/
theorem stepKeepsMemoryCanonical : Obligations.StepKeepsMemoryCanonical := by
  unfold Obligations.StepKeepsMemoryCanonical
  exact fun s t hwf h => (step_kept h).wf hwf

/-- Settles O54: the other parts of what every cycle keeps. -/
theorem stepKeepsHostPromises : Obligations.StepKeepsHostPromises := by
  unfold Obligations.StepKeepsHostPromises
  exact fun s t h => ⟨(step_kept h).output, (step_kept h).input, (step_kept h).request⟩
end


section
/-! PROOFS. The frames (spec/10_state.md R21, R25) and the halts (60_exceptions.md R150): what each class of instructions
leaves unchanged, from what an instruction can do. -/

namespace Sys2Proof.Machine

variable {s t u : State}

theorem State.sameHost_refl (s : State) : s.sameHost s := ⟨rfl, rfl, rfl, rfl, rfl, rfl⟩

/-- Whichever load: LD, LDR or LDI. -/
theorem load_next {i : Instr} {dr base : Reg} {off9 : BitVec 9} {off6 : BitVec 6}
    (hi : i ∈ [Instr.ld dr off9, .ldr dr base off6, .ldi dr off9]) (h : exec i s = .next t) :
    (∃ w u, HostFrame s u ∧ u.run = s.run ∧ u.output = s.output ∧ t = defineReg dr w u) ∨
      (Abandoned s t ∧ t.output = s.output) := by
  simp only [List.mem_cons, List.not_mem_nil, or_false] at hi
  rcases hi with rfl | rfl | rfl
  · exact (readsFrom_memRead _ s).load_next h
  · exact (readsFrom_memRead _ s).load_next h
  · exact ((readsFrom_memRead _ s).bind readsFrom_memRead).load_next h

/-- The host's fields are not among those a flag writer writes. -/
theorem defineReg_sameHost (dr : Reg) (v : Word) (s : State) : s.sameHost (defineReg dr v s) := by
  rw [defineReg_eq]; exact s.sameHost_refl

/-- LD, LDR and LDI that read KBSR nowhere define DR on the state as it was. -/
theorem load_next_of_not_readsKbsr {i : Instr} {dr base : Reg} {off9 : BitVec 9} {off6 : BitVec 6}
    (hi : i ∈ [Instr.ld dr off9, .ldr dr base off6, .ldi dr off9]) (hk : ¬readsKbsr i s) (h : exec i s = .next t) :
    ∃ w, t = defineReg dr w s := by
  simp only [List.mem_cons, List.not_mem_nil, or_false] at hi
  rcases hi with rfl | rfl | rfl
  · rw [exec, execLd, memRead_of_ne hk] at h
    cases h; exact ⟨_, rfl⟩
  · rw [exec, execLdr, memRead_of_ne hk] at h
    cases h; exact ⟨_, rfl⟩
  · obtain ⟨hp, hd⟩ := not_or.1 hk
    rw [exec, execLdi, indirect, memRead_of_ne hp, Ran.bind_done, memRead_of_ne hd] at h
    cases h; exact ⟨_, rfl⟩

/-- A store changes the two bytes of its word. -/
theorem memWrite_readByte (s : State) (a v : Word) {k : Nat} (hk : ¬isByteOf a k) :
    (s.memWrite a v).mem.readByte k = s.mem.readByte k := by
  obtain ⟨hlow, hhigh⟩ := not_or.1 hk
  rw [State.memWrite_mem, Memory.readByte_poke, if_neg hhigh, if_neg hlow]

/-- The poll and the halt of an abandoned pointer read leave all of memory. -/
theorem indirect_abandoned_mem {off : BitVec 9} (h : indirect off s = .abandoned t) : t.mem = s.mem := by
  obtain ⟨-, -, rfl⟩ := memRead_abandoned h
  exact s.hostTurn_mem

end Sys2Proof.Machine

open Sys2Proof Sys2Proof.Machine

/-- Settles O46: each of the six is one write of DR with its flags. -/
theorem operateFrame : Obligations.OperateFrame := by
  unfold Obligations.OperateFrame
  intro i dr sr1 sr2 imm off s t hi h
  obtain ⟨v, rfl⟩ : ∃ v, t = defineReg dr v s := by
    simp only [List.mem_cons, List.not_mem_nil, or_false] at hi
    rcases hi with rfl | rfl | rfl | rfl | rfl | rfl <;> (cases h; exact ⟨_, rfl⟩)
  exact ⟨fun r hr => by simp [hr], defineReg_pc s dr v, fun k => by rw [defineReg_mem], defineReg_run s dr v,
    defineReg_sameHost dr v s⟩

/-- Settles O47: a load has defined DR after its reads or was abandoned in one; without a read of KBSR it only defined
DR. -/
theorem loadFrame : Obligations.LoadFrame := by
  unfold Obligations.LoadFrame
  intro i dr base off9 off6 s t hi h
  have hplain : ¬readsKbsr i s → (∀ k, t.mem.readByte k = s.mem.readByte k) ∧ t.run = s.run ∧ s.sameHost t := by
    intro hk
    obtain ⟨w, rfl⟩ := load_next_of_not_readsKbsr hi hk h
    exact ⟨fun k => by rw [defineReg_mem], defineReg_run s dr w, defineReg_sameHost dr w s⟩
  rcases load_next hi h with ⟨w, u, hframe, hrun, hout, rfl⟩ | ⟨hab, hout⟩
  · refine ⟨fun r hr => ?_, ?_, ?_, ?_, fun k hk => ?_, .inl ?_, hplain⟩
    · simp [hr, State.reg, hframe.regs]
    · rw [defineReg_pc, hframe.pc]
    · rw [defineReg_output, hout]
    · rw [defineReg_input]; exact hframe.input
    · rw [defineReg_mem, hframe.bytes k hk]
    · rw [defineReg_run, hrun]
  · exact ⟨fun r _ => by rw [State.reg, hab.regs, State.reg], hab.pc, hout, hab.input, hab.bytes, .inr hab.run, hplain⟩

/-- Settles O48: ST and STR are one store; STI is one after its pointer read, or is abandoned in it. -/
theorem storeFrame : Obligations.StoreFrame := by
  unfold Obligations.StoreFrame
  refine ⟨fun sr off s t h => ?_, fun sr base off s t h => ?_, fun sr off s t h => ?_⟩
  · cases h
    exact ⟨rfl, rfl, rfl, rfl, s.sameHost_refl, fun k hk => memWrite_readByte s _ _ hk⟩
  · cases h
    exact ⟨rfl, rfl, rfl, rfl, s.sameHost_refl, fun k hk => memWrite_readByte s _ _ hk⟩
  · have hplain : ¬readsKbsr (.sti sr off) s →
        (∀ k, ¬isByteOf (s.mem.peek (pcRelative off s)) k → t.mem.readByte k = s.mem.readByte k) ∧
        t.run = s.run ∧ s.sameHost t := by
      intro hk
      rw [exec_sti_of_ne hk] at h
      cases h
      exact ⟨fun k hb => memWrite_readByte s _ _ hb, rfl, s.sameHost_refl⟩
    rcases sti_next h with ⟨ea, u, hread, hframe, hrun, hout, rfl⟩ | ⟨hread, hab, hout⟩
    · refine ⟨hframe.regs, hframe.pc, hframe.cond, hout, hframe.input, fun ea' s' hread' => ?_, fun s' hread' => ?_,
        hplain⟩
      · rw [hread] at hread'
        cases hread'
        exact ⟨fun k hk => memWrite_readByte u _ _ hk,
          fun k hk hkey => (memWrite_readByte u _ _ hk).trans (hframe.bytes k hkey)⟩
      · rw [hread] at hread'; cases hread'
    · refine ⟨hab.regs, hab.pc, hab.cond, hout, hab.input, fun ea' s' hread' => ?_, fun _ _ k => ?_, hplain⟩
      · rw [hread] at hread'; cases hread'
      · rw [indirect_abandoned_mem hread]

/-- Settles O49: by the five instructions, each of which writes PC at most, and R7 where it links. -/
theorem controlFrame : Obligations.ControlFrame := by
  unfold Obligations.ControlFrame
  intro i n z p off9 off11 base s t hi h
  simp only [List.mem_cons, List.not_mem_nil, or_false] at hi
  rcases hi with rfl | rfl | rfl | rfl | rfl
  · cases h
    split <;> exact ⟨fun _ _ => rfl, fun _ _ => rfl, rfl, fun _ => rfl, rfl, s.sameHost_refl⟩
  · cases h
    exact ⟨fun r hr => by simp [hr], fun hne => absurd rfl hne, rfl, fun _ => rfl, rfl, s.sameHost_refl⟩
  · cases h
    exact ⟨fun r hr => by simp [hr], fun _ hne => absurd rfl hne, rfl, fun _ => rfl, rfl, s.sameHost_refl⟩
  · cases h
    exact ⟨fun _ _ => rfl, fun _ _ => rfl, rfl, fun _ => rfl, rfl, s.sameHost_refl⟩
  · cases h
    exact ⟨fun _ _ => rfl, fun _ _ => rfl, rfl, fun _ => rfl, rfl, s.sameHost_refl⟩
end


section
/-! PROOFS. The frames of RES and TRAP (spec/10_state.md R21, 43_system.md R122, R123), the flag writers (10_state.md R25)
and the halts (60_exceptions.md R150). -/

namespace Sys2Proof.Machine

variable {s t u : State} {v : BitVec 8}

/-! ## What the routine of a vector leaves, field by field -/

namespace TrapNext

theorem reg_eq (h : TrapNext v s t) {r : Reg} (hr : r = .r0 → v ≠ 0x20 ∧ v ≠ 0x23) : t.reg r = s.reg r := by
  cases h with
  | read hv frame run mem output ht =>
    have hne : r ≠ .r0 := fun e => hv.elim (hr e).1 (hr e).2
    rw [ht, defineReg_reg, if_neg hne, State.reg, frame.regs, State.reg]
  | walked hv frame run mem => rw [State.reg, frame.regs, State.reg]
  | abandoned hv ab mem output => rw [State.reg, ab.regs, State.reg]
  | out hv ht => rw [ht, State.put_reg]
  | halt hv ht => rw [ht, State.halt_reg, State.put_reg]
  | unknown hv ht => rw [ht, State.halt_reg]

theorem pc_eq (h : TrapNext v s t) : t.pc = s.pc := by
  cases h with
  | read hv frame run mem output ht => rw [ht, defineReg_pc, frame.pc]
  | walked hv frame run mem => exact frame.pc
  | abandoned hv ab mem output => exact ab.pc
  | out hv ht => rw [ht, State.put_pc]
  | halt hv ht => rw [ht, State.halt_pc, State.put_pc]
  | unknown hv ht => rw [ht, State.halt_pc]

theorem cond_eq (h : TrapNext v s t) (h20 : v ≠ 0x20) (h23 : v ≠ 0x23) : t.cond = s.cond := by
  cases h with
  | read hv frame run mem output ht => exact (hv.elim h20 h23).elim
  | walked hv frame run mem => exact frame.cond
  | abandoned hv ab mem output => exact ab.cond
  | out hv ht => rw [ht, State.put_cond]
  | halt hv ht => rw [ht, State.halt_cond, State.put_cond]
  | unknown hv ht => rw [ht, State.halt_cond]

theorem bytes_eq (h : TrapNext v s t) {k : Nat} (hk : ¬isKeyboardByte k) : t.mem.readByte k = s.mem.readByte k := by
  cases h with
  | read hv frame run mem output ht => rw [ht, defineReg_mem, mem]
  | walked hv frame run mem => exact frame.bytes k hk
  | abandoned hv ab mem output => exact ab.bytes k hk
  | out hv ht => rw [ht, State.put_mem]
  | halt hv ht => rw [ht, State.halt_mem, State.put_mem]
  | unknown hv ht => rw [ht, State.halt_mem]

/-- Only a walk in polling mode writes memory. -/
theorem mem_eq (h : TrapNext v s t) (hm : (v ≠ 0x22 ∧ v ≠ 0x24) ∨ Config.params.stringReadMode = .plain) :
    t.mem = s.mem := by
  cases h with
  | read hv frame run mem output ht => rw [ht, defineReg_mem, mem]
  | walked hv frame run mem => exact hm.elim (fun hne => (hv.elim hne.1 hne.2).elim) mem
  | abandoned hv ab mem output => exact mem hm
  | out hv ht => rw [ht, State.put_mem]
  | halt hv ht => rw [ht, State.halt_mem, State.put_mem]
  | unknown hv ht => rw [ht, State.halt_mem]

/-- The five routines that return do so with the run state as it was, unless they are abandoned. -/
theorem run_eq (h : TrapNext v s t) (hv : 0x20 ≤ v.toNat ∧ v.toNat ≤ 0x24) :
    t.run = s.run ∨ t.run = .halted .interruptRequested := by
  cases h with
  | read _ frame run mem output ht => rw [ht, defineReg_run]; exact .inl run
  | walked _ frame run mem => exact .inl run
  | abandoned _ ab mem output => exact .inr ab.run
  | out _ ht => rw [ht, State.put_run]; exact .inl rfl
  | halt hhalt ht => rw [hhalt] at hv; exact absurd hv (by decide)
  | unknown hunknown ht => omega

theorem output_prefix (h : TrapNext v s t) : s.output <+: t.output := by
  cases h with
  | read hv frame run mem output ht => rw [ht, defineReg_output]; exact frame.output
  | walked hv frame run mem => exact frame.output
  | abandoned hv ab mem output => exact ab.output
  | out hv ht => rw [ht, State.put_output]; exact List.prefix_append _ _
  | halt hv ht => rw [ht, State.halt_output, State.put_output]; exact List.prefix_append _ _
  | unknown hv ht => rw [ht, State.halt_output]

/-- GETC echoes nothing, and an unknown vector puts nothing. -/
theorem output_eq (h : TrapNext v s t) (hv : v = 0x20 ∨ v.toNat < 0x20 ∨ 0x25 < v.toNat) : t.output = s.output := by
  cases h with
  | read hread frame run mem output ht =>
    rcases hread with h20 | rfl
    · rw [ht, defineReg_output, output h20]
    · exact absurd hv (by decide)
  | walked hwalk frame run mem => exact absurd hv (by rcases hwalk with rfl | rfl <;> decide)
  | abandoned habandoned ab mem output =>
    simp only [List.mem_cons, List.not_mem_nil, or_false] at habandoned
    rcases habandoned with h20 | hrest
    · exact output h20
    · exact absurd hv (by rcases hrest with rfl | rfl | rfl <;> decide)
  | out hout ht => exact absurd hv (by rw [hout]; decide)
  | halt hhalt ht => exact absurd hv (by rw [hhalt]; decide)
  | unknown _ ht => rw [ht, State.halt_output]

theorem input_suffix (h : TrapNext v s t) : t.input <:+ s.input := by
  cases h with
  | read hv frame run mem output ht => rw [ht, defineReg_input]; exact frame.input
  | walked hv frame run mem => exact frame.input
  | abandoned hv ab mem output => exact ab.input
  | out hv ht => rw [ht, State.put_input]
  | halt hv ht => rw [ht, State.halt_input, State.put_input]
  | unknown hv ht => rw [ht, State.halt_input]

/-- The routines that neither read nor walk take nothing from the input. -/
theorem input_eq (h : TrapNext v s t) (hv : v ∉ [0x20#8, 0x22, 0x23, 0x24]) : t.input = s.input := by
  cases h with
  | read hread frame run mem output ht => exact absurd (by rcases hread with rfl | rfl <;> decide) hv
  | walked hwalk frame run mem => exact absurd (by rcases hwalk with rfl | rfl <;> decide) hv
  | abandoned habandoned ab mem output => exact absurd habandoned hv
  | out _ ht => rw [ht, State.put_input]
  | halt _ ht => rw [ht, State.halt_input, State.put_input]
  | unknown _ ht => rw [ht, State.halt_input]

end TrapNext

/-! ## The flag a flag writer leaves -/

/-- R25 in one expression: COND is that of the register a flag writer defines, else what it was. -/
def condAfter (i : Instr) (s t : State) : Cond := (flagReg i).elim s.cond fun dr => condOf (t.reg dr)

theorem ExecNext.cond_eq {i : Instr} (h : ExecNext i s t) (hrun : s.run = .running) :
    (t.run = .halted .interruptRequested → t.cond = s.cond) ∧
      (t.run ≠ .halted .interruptRequested → t.cond = condAfter i s t) := by
  cases h with
  | defines hi kept run ht =>
    subst ht
    refine ⟨fun hr => ?_, fun _ => ?_⟩
    · rw [defineReg_run, run, hrun] at hr; cases hr
    · simp [condAfter, hi]
  | goesOn hi kept run cond => exact ⟨fun _ => cond, fun _ => by rw [condAfter, hi]; exact cond⟩
  | halts hi kept run raised cond => exact ⟨fun _ => cond, fun _ => by rw [condAfter, hi]; exact cond⟩
  | abandoned kept run requested cond => exact ⟨fun _ => cond, fun hr => absurd run hr⟩

/-! ## What halts -/

theorem ExecNext.halted {i : Instr} {why : HaltReason} (h : ExecNext i s t) (hrun : s.run = .running)
    (ht : t.run = .halted why) :
    why.RaisedBy i s ∨ (why = .interruptRequested ∧ t.interruptRequested = true) := by
  cases h with
  | defines hi kept run htdef => rw [htdef, defineReg_run, run, hrun] at ht; cases ht
  | goesOn hi kept run cond => rw [run, hrun] at ht; cases ht
  | halts hi kept run raised cond => rw [run] at ht; cases ht; exact .inl raised
  | abandoned kept run requested cond => rw [run] at ht; cases ht; exact .inr ⟨rfl, requested⟩

theorem memRead_kbsr_done {w : Word} (h : memRead kbsr s = .done w t) : w = s.polledWord ∧ t = s.afterPoll := by
  by_cases hdue : s.noRequestDue
  · rw [memRead_kbsr_of_noRequestDue hdue] at h; cases h; exact ⟨rfl, rfl⟩
  · rw [memRead_kbsr_of_requestDue hdue] at h; cases h

/-- As an instruction, the word a poll of KBSR answers is RTI (0x8000) or a BR that is never taken (0x0000)
(43_system.md R120). -/
theorem decode_polledWord (s : State) :
    decode s.polledWord = .rti ∨ decode s.polledWord = .br false false false 0 := by
  unfold State.polledWord
  split
  · exact .inl (by decide)
  · exact .inr (by decide)

/-- Neither of the two raises a halt reason. -/
theorem not_raisedBy_polledWord (why : HaltReason) (s u : State) : ¬why.RaisedBy (decode s.polledWord) u := by
  rcases decode_polledWord s with hd | hd <;> rw [hd]
  · cases why <;> simp [HaltReason.RaisedBy]
  · cases why <;> simp [HaltReason.RaisedBy]

/-- A RES carries the word it was decoded from, whose opcode is 1101. -/
theorem decode_eq_res {w word : Word} (h : decode w = .res word) : word = w ∧ opcodeField w = 0xD#4 := by
  obtain ⟨hwf, hagree⟩ := encode_decode w
  rw [h] at hwf hagree
  obtain rfl : word = w := hagree.eq_of_zero
  exact ⟨rfl, beq_iff_eq.1 hwf⟩

/-- An instruction that raises a halt reason was not fetched from KBSR, so it stood in memory at pc. -/
theorem raised_fetched {why : HaltReason} {w : Word} (hread : memRead s.pc s = .done w t)
    (h : why.RaisedBy (decode w) u) : s.pc ≠ kbsr ∧ w = s.mem.peek s.pc ∧ t = s := by
  by_cases hk : s.pc = kbsr
  · rw [hk] at hread
    rw [(memRead_kbsr_done hread).1] at h
    exact absurd h (not_raisedBy_polledWord why s u)
  · rw [memRead_of_ne hk] at hread
    cases hread
    exact ⟨hk, rfl, rfl⟩

end Sys2Proof.Machine

open Sys2Proof Sys2Proof.Machine

/-- Settles O50: RES only halts; TRAP writes R7, and then what its routine leaves is said field by field. -/
theorem systemFrame : Obligations.SystemFrame := by
  unfold Obligations.SystemFrame
  refine ⟨fun w s t h => ?_, fun v s t h => ?_⟩
  · cases h
    exact ⟨rfl, rfl, rfl, fun _ => rfl, s.sameHost_refl⟩
  · have hn := exec_trap_next h
    refine ⟨fun r hr7 hr0 => ?_, ?_, hn.pc_eq, hn.cond_eq, fun k hk => hn.bytes_eq hk, fun hm k => ?_, hn.run_eq,
      hn.output_prefix, hn.output_eq, hn.input_suffix, hn.input_eq⟩
    · rw [hn.reg_eq hr0, State.setReg_reg, if_neg hr7]
    · rw [hn.reg_eq (fun e => by cases e), State.setReg_reg, if_pos rfl]
    · rw [hn.mem_eq hm, State.setReg_mem]

/-- Settles O51: by what an instruction can do, the flag writers being those that define a register. -/
theorem flagWriters : Obligations.FlagWriters := by
  unfold Obligations.FlagWriters
  intro i s t hrun h
  obtain ⟨habandoned, hcond⟩ := (exec_next h).cond_eq hrun
  refine ⟨habandoned, fun hr => (hcond hr).trans ?_⟩
  cases i with
  | trap v =>
    simp only [condAfter, flagReg]
    split <;> rfl
  | _ => rfl

/-- Settles O55: the cycle halts at its own wait, in its fetch's poll, or in an instruction, which raises a reason of its
own or is abandoned; the word a poll answers raises none. -/
theorem onlyTheseHalt : Obligations.OnlyTheseHalt := by
  unfold Obligations.OnlyTheseHalt
  intro s t why h ht
  obtain ⟨hrun, ⟨-, rfl⟩ | ⟨hq, hf | ⟨w, u, hf, hexec⟩⟩⟩ := step_cases h
  · cases ht; rfl
  · obtain ⟨-, -, rfl⟩ | ⟨_, _, -, hr⟩ := (Ran.bind_eq_abandoned hf).imp_left memRead_abandoned
    · cases ht; rfl
    · cases hr
  · obtain ⟨x, hread, rfl⟩ := fetch_done hf
    have hxrun : x.run = .running := by rw [(memRead_done_frame hread).2, State.hostTurn_run, hrun]
    rcases (exec_next hexec).halted hxrun ht with hraised | ⟨rfl, hreq⟩
    · obtain ⟨hk, rfl, rfl⟩ := raised_fetched hread hraised
      rw [State.hostTurn_pc] at hk
      rw [State.hostTurn_pc, State.hostTurn_mem] at hraised
      have haddr : s.pc + 1 - 1 = s.pc := by bv_omega
      cases why with
      | haltTrap => exact ⟨hk, hraised⟩
      | illegalOpcode word a =>
        obtain ⟨hd, ha⟩ := hraised
        obtain ⟨rfl, hop⟩ := decode_eq_res hd
        exact ⟨hk, ha.trans haddr, rfl, hop⟩
      | illegalTrapVector v a =>
        obtain ⟨hd, ha, hv⟩ := hraised
        exact ⟨hk, ha.trans haddr, hd, hv⟩
      | interruptRequested => exact hraised.elim
    · exact hreq
end


section
/-! PROOFS. Registers, flags and reset (spec/10_state.md R20, R23, R24, R32), the poll (20_memory.md R43) and the cycle
(43_system.md R120). -/

namespace Sys2Proof.Machine

variable {s t u : State}

/-! ## The condition of a value (R24, 40_operate.md R85) -/

theorem condOf_of_ne_zero {v : Word} (h : v ≠ 0) : condOf v = if v.getLsbD 15 then .neg else .pos := by
  rw [condOf, if_neg h, BitVec.msb_eq_getLsbD_last]

/-- Bit 15 is the sign. -/
theorem bit15_iff_toInt_neg (v : Word) : v.getLsbD 15 = true ↔ v.toInt < 0 := by
  rw [show v.getLsbD 15 = v.msb from (BitVec.msb_eq_getLsbD_last v).symm, BitVec.msb_eq_toInt, decide_eq_true_iff]

theorem toInt_ne_zero {v : Word} (h : v ≠ 0) : v.toInt ≠ 0 :=
  fun e => h (BitVec.eq_of_toInt_eq (e.trans BitVec.toInt_zero.symm))

/-! ## The poll (20_memory.md R43, decisions D7 to D9) -/

/-- Where the poll's two outcomes are told apart: whether a key was found. -/
theorem State.polledWord_eq (s : State) : s.polledWord = keyWord s.hostTurn.pollResult.1 := rfl

theorem State.afterPoll_peek_kbsr (s : State) : s.afterPoll.mem.peek kbsr = s.polledWord :=
  latchKey_peek_kbsr _ _

theorem latchKey_peek_of_ne (key : Option Byte) (s : State) {a : Word} (hk : a ≠ kbsr) (hd : a ≠ kbdr) :
    (latchKey key s).mem.peek a = s.mem.peek a := by
  cases key with
  | none => simp [latchKey, hk]
  | some c => simp [latchKey, hk, hd]

theorem State.afterPoll_peek_of_ne (s : State) {a : Word} (hk : a ≠ kbsr) (hd : a ≠ kbdr) :
    s.afterPoll.mem.peek a = s.mem.peek a := by
  rw [State.afterPoll, latchKey_peek_of_ne _ _ hk hd, State.pollResult_mem, State.hostTurn_mem]

/-- No key: KBSR reads 0, KBDR and the input stand. -/
theorem State.afterPoll_of_no_key (h : s.hostTurn.pollResult.1 = none) :
    s.polledWord = 0 ∧ s.afterPoll.mem.peek kbdr = s.mem.peek kbdr ∧ s.afterPoll.input = s.input := by
  obtain ⟨l, n, hr | ⟨c, rest, hi, hr⟩⟩ := s.hostTurn.pollResult_cases
  · refine ⟨by rw [State.polledWord_eq, h]; rfl, ?_, ?_⟩
    · rw [State.afterPoll, latchKey_peek_kbdr, h, Option.elim_none, State.pollResult_mem, State.hostTurn_mem]
    · rw [State.afterPoll, latchKey_input, hr, State.hostTurn_input]
  · rw [hr] at h; cases h

/-- A key: KBSR reads 0x8000, the character has moved from the input into KBDR. -/
theorem State.afterPoll_of_key {c : Byte} (h : s.hostTurn.pollResult.1 = some c) :
    s.polledWord = 0x8000 ∧ s.afterPoll.mem.peek kbdr = c.zeroExtend 16 ∧ s.input = c :: s.afterPoll.input := by
  obtain ⟨l, n, hr | ⟨c', rest, hi, hr⟩⟩ := s.hostTurn.pollResult_cases
  · rw [hr] at h; cases h
  · refine ⟨by rw [State.polledWord_eq, h]; rfl, ?_, ?_⟩
    · rw [State.afterPoll, latchKey_peek_kbdr, h, Option.elim_some]
    · rw [State.afterPoll, latchKey_input, hr]
      rw [hr] at h
      cases h
      rw [← State.hostTurn_input, hi]

theorem State.pollAnswer_of_cons {b : Bool} {more : List Bool} (h : s.pollAnswers = b :: more) :
    s.pollAnswer = (b, { s with pollAnswers := more }) := by rw [State.pollAnswer, h]

theorem State.pollAnswer_of_nil (h : s.pollAnswers = []) :
    s.pollAnswer = (Config.keyPending s.draws, { s with draws := s.draws + 1 }) := by rw [State.pollAnswer, h]

/-- A listed answer decides the poll, and is used up. -/
theorem State.pollResult_of_answer {b : Bool} {more : List Bool} (h : s.pollAnswers = b :: more) :
    s.pollResult.1 = (if b then s.input.head? else none) ∧ s.pollResult.2.pollAnswers = more := by
  rw [State.pollResult, State.pollAnswer_of_cons h]
  cases hi : s.input <;> cases b <;> simp

/-- Past the listed answers the free value decides (log 9). -/
theorem State.pollResult_of_no_answer (h : s.pollAnswers = []) :
    s.pollResult.1 = if Config.keyPending s.draws then s.input.head? else none := by
  rw [State.pollResult, State.pollAnswer_of_nil h]
  cases hi : s.input <;> cases Config.keyPending s.draws <;> simp

theorem State.afterPoll_pollAnswers {b : Bool} {more : List Bool} (h : s.pollAnswers = b :: more) :
    s.afterPoll.pollAnswers = more := by
  have hturn : s.hostTurn.pollAnswers = b :: more := by rw [State.hostTurn_pollAnswers, h]
  rw [State.afterPoll, latchKey_pollAnswers, (State.pollResult_of_answer hturn).2]

/-- Whether a poll finds a key, by the answer it gets: `b`, listed or free. -/
theorem State.hostTurn_pollResult {b : Bool}
    (hb : (∃ more, s.pollAnswers = b :: more) ∨ (s.pollAnswers = [] ∧ Config.keyPending s.draws = b)) :
    s.hostTurn.pollResult.1 = if b then s.input.head? else none := by
  rcases hb with ⟨more, h⟩ | ⟨h, hb⟩
  · have hturn : s.hostTurn.pollAnswers = b :: more := by rw [State.hostTurn_pollAnswers, h]
    rw [(State.pollResult_of_answer hturn).1, State.hostTurn_input]
  · have hturn : s.hostTurn.pollAnswers = [] := by rw [State.hostTurn_pollAnswers, h]
    rw [State.pollResult_of_no_answer hturn, State.hostTurn_draws, State.hostTurn_input, hb]

/-! ## The cycle -/

/-- Whatever the schedule, the request that is taken leaves the same state. -/
@[simp] theorem State.hostTurn_requestTaken (s : State) : s.hostTurn.requestTaken = s.requestTaken := by
  simp [State.requestTaken]

/-- A request is taken at the cycle's start before anything is fetched (60_exceptions.md R155, R156). -/
theorem step_of_requestDue (hrun : s.run = .running) (h : ¬s.noRequestDue) : step s = .next s.requestTaken := by
  rw [step, hrun, waitPoint_stop (State.hostTurn_of_not_noRequestDue h), State.terminate_hostTurn]

/-- What the fetch at KBSR reads does nothing. -/
theorem exec_decode_polledWord (s u : State) : exec (decode s.polledWord) u = .next u := by
  rcases decode_polledWord s with hd | hd <;> rw [hd]
  · rfl
  · cases hc : u.cond <;> simp [exec, execBr, intersects, nzpMask, hc, Cond.toWord]

/-- A fetch from KBSR polls, at a point of its own after the cycle's first. -/
theorem fetch_kbsr (hpc : s.pc = kbsr) :
    (s.noRequestDue → fetch s = .done s.polledWord (s.afterPoll.setPc (kbsr + 1))) ∧
      (¬s.noRequestDue → fetch s = .abandoned s.requestTaken) := by
  refine ⟨fun hdue => ?_, fun hdue => ?_⟩
  · rw [fetch, hpc, memRead_kbsr_of_noRequestDue hdue, Ran.bind_done]
  · rw [fetch, hpc, memRead_kbsr_of_requestDue hdue, Ran.bind_abandoned]

/-- A cycle that its first point lets pass, by what its fetch comes to. -/
theorem step_of_fetch_done {w : Word} (hrun : s.run = .running) (hq : s.noRequestDue)
    (hf : fetch s.hostTurn = .done w u) : step s = exec (decode w) u := by
  rw [step, hrun, waitPoint_pass (s.hostTurn_of_noRequestDue hq.1 hq.2)]
  simp only [hf]

theorem step_of_fetch_abandoned (hrun : s.run = .running) (hq : s.noRequestDue)
    (hf : fetch s.hostTurn = .abandoned u) : step s = .next u := by
  rw [step, hrun, waitPoint_pass (s.hostTurn_of_noRequestDue hq.1 hq.2)]
  simp only [hf]

/-- The store before it is what the next cycle fetches: with no request to come a cycle away from KBSR runs the word
memory holds at pc (20_memory.md R57). -/
theorem step_of_noRequest (hrun : s.run = .running) (hq : s.noRequest) (hpc : s.pc ≠ kbsr) :
    step s = exec (decode (s.mem.peek s.pc)) (s.setPc (s.pc + 1)) := by
  have h := step_exec hrun (s.hostTurn_of_noRequestDue hq.1 (by simp [hq.2])) hpc
  rwa [s.hostTurn_of_requestIn_none hq.2] at h

end Sys2Proof.Machine

open Sys2Proof Sys2Proof.Machine

/-- Settles O7: the file's read-after-write law. -/
theorem registerWriteThenRead : Obligations.RegisterWriteThenRead := by
  unfold Obligations.RegisterWriteThenRead
  exact fun s r q v => s.setReg_reg r q v

/-- Settles O8: zero apart, bit 15 decides, and it is the sign. -/
theorem conditionOfValue : Obligations.ConditionOfValue := by
  unfold Obligations.ConditionOfValue
  intro v
  by_cases h0 : v = 0
  · subst h0; decide
  have hcond := condOf_of_ne_zero h0
  have hsign := bit15_iff_toInt_neg v
  have hint := toInt_ne_zero h0
  cases hbit : v.getLsbD 15 with
  | true =>
    rw [hbit, if_pos rfl] at hcond
    have hneg : v.toInt < 0 := hsign.1 hbit
    have hpos : ¬0 < v.toInt := by omega
    simp [hcond, show v ≠ 0#16 from h0, hneg, hpos, Cond.toWord]
  | false =>
    rw [hbit, if_neg (by decide)] at hcond
    have hneg : ¬v.toInt < 0 := fun h => by rw [hsign.2 h] at hbit; cases hbit
    have hpos : 0 < v.toInt := by omega
    simp [hcond, show v ≠ 0#16 from h0, hneg, hpos, Cond.toWord]

/-- Settles O10: what a poll leaves with a key and without, and which of the two it is by the host's answer. -/
theorem keyboardStatusRead : Obligations.KeyboardStatusRead := by
  unfold Obligations.KeyboardStatusRead
  intro s hdue
  refine ⟨memRead_kbsr_of_noRequestDue hdue, s.afterPoll_peek_kbsr, fun a hk hd => s.afterPoll_peek_of_ne hk hd,
    ?_, fun more c rest ha hi => ?_, fun more ha => ?_, fun hi => ?_, fun ha hi => ?_⟩
  · cases hkey : s.hostTurn.pollResult.1 with
    | none => exact .inl (State.afterPoll_of_no_key hkey)
    | some c =>
      obtain ⟨hword, hkbdr, hinput⟩ := State.afterPoll_of_key hkey
      exact .inr ⟨hword, c, hinput, hkbdr⟩
  · have hkey : s.hostTurn.pollResult.1 = some c := by
      rw [State.hostTurn_pollResult (.inl ⟨more, ha⟩), hi]; rfl
    obtain ⟨hword, hkbdr, hinput⟩ := State.afterPoll_of_key hkey
    rw [hi, List.cons.injEq] at hinput
    exact ⟨hword, hkbdr, hinput.2.symm, State.afterPoll_pollAnswers ha⟩
  · have hkey : s.hostTurn.pollResult.1 = none := State.hostTurn_pollResult (b := false) (.inl ⟨more, ha⟩)
    exact ⟨(State.afterPoll_of_no_key hkey).1, State.afterPoll_pollAnswers ha⟩
  · have hkey := State.pollResult_of_input_nil (s := s.hostTurn) (by rw [State.hostTurn_input, hi])
    exact (State.afterPoll_of_no_key hkey).1
  · obtain ⟨c, rest, hi⟩ := List.exists_cons_of_ne_nil hi
    have hkey := State.hostTurn_pollResult (s := s) (.inr ⟨ha, rfl⟩)
    rw [State.polledWord_eq, hkey, hi]
    cases Config.keyPending s.draws <;> rfl

/-- Settles O11: the fields of one state; its memory is the empty list. -/
theorem resetState : Obligations.ResetState := by
  unfold Obligations.ResetState
  exact ⟨rfl, rfl, rfl, rfl, fun r => by cases r <;> rfl, Memory.peek_nil, rfl, rfl⟩

/-- Settles O12: the empty list is canonical. -/
theorem resetMemoryCanonical : Obligations.ResetMemoryCanonical := Memory.wf_nil

/-- Settles O13: a cycle that no request stops, away from KBSR; with no schedule the host's turn moves nothing. -/
theorem stepRunsDecodedInstr : Obligations.StepRunsDecodedInstr := by
  unfold Obligations.StepRunsDecodedInstr
  refine ⟨fun s i hrun hdue hpc hi _ => ?_, fun s hr => s.hostTurn_of_requestIn_none hr⟩
  rw [← hi]
  exact step_exec hrun (s.hostTurn_of_noRequestDue hdue.1 hdue.2) hpc

/-- Settles O14: the fetch polls in the state after the cycle's first point, and the word it reads does nothing. -/
theorem fetchAtKeyboardStatus : Obligations.FetchAtKeyboardStatus := by
  unfold Obligations.FetchAtKeyboardStatus
  intro s hrun hpc hdue
  obtain ⟨hdone, habandoned⟩ := fetch_kbsr (s := s.hostTurn) (by rw [State.hostTurn_pc, hpc])
  refine ⟨fun hturn => ?_, fun hturn => ?_⟩
  · rw [step_of_fetch_done hrun hdue (hdone hturn), exec_decode_polledWord]
    rfl
  · rw [step_of_fetch_abandoned hrun hdue (habandoned hturn), State.hostTurn_requestTaken]

/-- Settles O15: the cycle's first point is before its fetch. -/
theorem requestTakenBeforeFetch : Obligations.RequestTakenBeforeFetch := by
  unfold Obligations.RequestTakenBeforeFetch
  exact fun s hrun h => step_of_requestDue hrun h

/-- Settles O16: a HALTED engine makes no step. -/
theorem haltedMakesNoStep : Obligations.HaltedMakesNoStep := by
  unfold Obligations.HaltedMakesNoStep
  exact fun s why h => step_halted h

/-- Settles O56: the store at pc + 1 is read back by the fetch of the next cycle. -/
theorem storeReachesNextFetch : Obligations.StoreReachesNextFetch := by
  unfold Obligations.StoreReachesNextFetch
  intro s sr hrun hq hpc hpc1 hst
  have hea : pcRelative (0 : BitVec 9) (s.setPc (s.pc + 1)) = s.pc + 1 := by simp [pcRelative, sext]
  have hstore : step s = .next ((s.setPc (s.pc + 1)).memWrite (s.pc + 1) (s.reg sr)) := by
    rw [step_of_noRequest hrun hq hpc, hst, exec, execSt, hea, State.setPc_reg]
  have hpeek : ((s.setPc (s.pc + 1)).memWrite (s.pc + 1) (s.reg sr)).mem.peek (s.pc + 1) = s.reg sr := by simp
  refine ⟨_, hstore, rfl, hpeek, ?_⟩
  have hnext := step_of_noRequest (s := (s.setPc (s.pc + 1)).memWrite (s.pc + 1) (s.reg sr)) hrun hq hpc1
  rw [hnext, State.memWrite_pc, State.setPc_pc, hpeek, BitVec.add_assoc]
  rfl
end


section
/-! PROOFS. BR and RTI (spec/42_control.md R110, 43_system.md R121), the trap routines (44_trap_routines.md R130 to R137),
and the waits that a request made or due abandons (60_exceptions.md R155). -/

namespace Sys2Proof.Machine

variable {s t u : State}

/-! ## BR -/

/-- The masks of nzp and of COND meet in the bit of COND's state (decisions D3, D4). -/
theorem intersects_iff (n z p : Bool) (c : Cond) :
    intersects n z p c = true ↔ (n = true ∧ c = .neg) ∨ (z = true ∧ c = .zero) ∨ (p = true ∧ c = .pos) := by
  cases n <;> cases z <;> cases p <;> cases c <;> decide

theorem exec_br (n z p : Bool) (off : BitVec 9) (s : State) :
    exec (.br n z p off) s = .next (
      if (n = true ∧ s.cond = .neg) ∨ (z = true ∧ s.cond = .zero) ∨ (p = true ∧ s.cond = .pos)
      then { s with pc := s.pc + sext off } else s) := by
  simp only [exec, execBr, intersects_iff]
  rfl

/-! ## TRAP's dispatch (R130) -/

theorem trapDispatch_unknown {v : BitVec 8} (hv : v.toNat < 0x20 ∨ 0x25 < v.toNat) (p : Params) (s : State) :
    trapDispatch p v s = trapUnknown v s := by
  have hne : ∀ c ∈ [0x20#8, 0x21, 0x22, 0x23, 0x24, 0x25], v ≠ c := by
    intro c hc e
    have hrange : ∀ c ∈ [0x20#8, 0x21, 0x22, 0x23, 0x24, 0x25], 0x20 ≤ c.toNat ∧ c.toNat ≤ 0x25 := by decide
    have := hrange c hc
    rw [e] at hv
    omega
  rw [trapDispatch_eq, if_neg (hne _ (by decide)), if_neg (hne _ (by decide)), if_neg (hne _ (by decide)),
    if_neg (hne _ (by decide)), if_neg (hne _ (by decide)), if_neg (hne _ (by decide))]

/-! ## Console reads: GETC and IN (R131, R134) -/

theorem exec_getc (s : State) :
    exec (.trap 0x20) s =
      (consoleGet Config.params.consoleEof (s.setReg .r7 s.pc)).toNext (defineReg .r0) := rfl

/-- IN prompts before it reads, and echoes after. -/
theorem exec_in (s : State) :
    exec (.trap 0x23) s =
      (consoleGet Config.params.consoleEof ((s.setReg .r7 s.pc).put Config.params.inPrompt)).toNext
        fun c s' => defineReg .r0 c (s'.put [lowByte c]) := rfl

theorem consoleGet_of_requestDue (h : ¬s.noRequestDue) (eof : Option Word) :
    consoleGet eof s = .abandoned s.requestTaken := by
  rw [consoleGet_stop (State.hostTurn_of_not_noRequestDue h), State.terminate_hostTurn]

/-- A read with a character left. -/
theorem consoleGet_of_cons {c : Byte} {rest : List Byte} (h : s.noRequestDue) (hi : s.input = c :: rest)
    (eof : Option Word) : consoleGet eof s = .done (c.zeroExtend 16) { s.hostTurn with input := rest } :=
  consoleGet_char (s.hostTurn_of_noRequestDue h.1 h.2) hi

/-- A read on an exhausted input, by `console_eof` (decision D11). -/
theorem consoleGet_of_nil (h : s.noRequestDue) (hi : s.input = []) (eof : Option Word) :
    consoleGet eof s = match eof with
      | some w => .done w s.hostTurn
      | none => if s.requestIn = none then .stuck (.consoleReadBlocked s) else .abandoned s.requestTaken := by
  have hq := s.hostTurn_of_noRequestDue h.1 h.2
  cases eof with
  | some w => exact consoleGet_eof hq hi
  | none =>
    rw [consoleGet_blocked hq hi, State.terminate_hostTurn]
    by_cases hr : s.requestIn = none
    · simp [hr]
    · have hturn : s.hostTurn.requestIn.isSome = true := by
        rw [Option.isSome_iff_ne_none]
        exact fun e => hr ((s.hostTurn_requestIn_eq_none h.2).1 e)
      simp [hr, hturn]

theorem lowByte_zeroExtend (c : Byte) : lowByte (c.zeroExtend 16) = c := by
  apply BitVec.eq_of_getLsbD_eq
  intro i hi
  simp [lowByte, hi, show i < 16 by omega]

/-- A zero-extended character is never negative. -/
theorem condOf_zeroExtend (c : Byte) : condOf (c.zeroExtend 16) = if c = 0 then .zero else .pos := by
  have h : ∀ c : Byte, condOf (c.zeroExtend 16) = if c = 0 then .zero else .pos := by decide
  exact h c

/-! ## String routines: PUTS and PUTSP (R133, R135) -/

theorem stringWalk_of_requestDue (h : ¬s.noRequestDue) (mode : StringReadMode) (emit : Word → List Byte) (n : Nat)
    (a : Word) : stringWalk mode emit (n + 1) a s = .abandoned s.requestTaken := by
  rw [stringWalk, waitPoint_stop (State.hostTurn_of_not_noRequestDue h), Ran.bind_abandoned, State.terminate_hostTurn]

theorem cellBytes_false : cellBytes false = emitPuts := rfl

theorem cellBytes_true : cellBytes true = emitPutsp := by
  funext w
  by_cases h : w.extractLsb' 8 8 = 0#8 <;> simp [cellBytes, emitPutsp, lowByte, highByte, h]

/-- PUTS and PUTSP are one walk, with the bytes of a cell that `packed` says. -/
theorem stringRoutine_eq (p : Params) (packed : Bool) (s : State) :
    stringRoutine p packed s =
      (stringWalk p.stringReadMode (cellBytes packed) (walkBound s) (s.reg .r0) s).toNext fun _ s' => s' := by
  cases packed with
  | false => rw [cellBytes_false]; rfl
  | true => rw [cellBytes_true]; rfl

/-- TRAP enters the string routines with R7 written, which is not where they read the address of the string. -/
theorem exec_string (packed : Bool) (s : State) :
    exec (.trap (stringVector packed)) s = stringRoutine Config.params packed (s.setReg .r7 s.pc) := by
  cases packed <;> rfl

theorem exec_string_walk (packed : Bool) (s : State) :
    exec (.trap (stringVector packed)) s =
      (stringWalk Config.params.stringReadMode (cellBytes packed) (walkBound s) (s.reg .r0)
        (s.setReg .r7 s.pc)).toNext fun _ s' => s' :=
  (exec_string packed s).trans (stringRoutine_eq _ _ _)

theorem stringRoutine_of_requestDue (h : ¬s.noRequestDue) (p : Params) (packed : Bool) :
    stringRoutine p packed s = .next s.requestTaken := by
  rw [stringRoutine_eq, walkBound, stringWalk_of_requestDue h, Ran.toNext_abandoned]

theorem lt_walkBound {n : Nat} (h : n < 65536) (s : State) : n < walkBound s := by
  unfold walkBound; omega

end Sys2Proof.Machine

open Sys2Proof Sys2Proof.Machine

/-- Settles O29: the two masks meet in the bit of COND's state. -/
theorem branchOnCondition : Obligations.BranchOnCondition := by
  unfold Obligations.BranchOnCondition
  exact fun n z p off s => ⟨decode_br n z p off, exec_br n z p off s⟩

/-- Settles O33: opcode 1000 alone selects RTI, which is a no-op by definition. -/
theorem rtiDoesNothing : Obligations.RtiDoesNothing := by
  unfold Obligations.RtiDoesNothing
  exact fun ignored s => ⟨decode_rti ignored, rfl⟩

/-- Settles O35: TRAP decodes by its vector alone, links through R7 and dispatches. -/
theorem trapEntersRoutine : Obligations.TrapEntersRoutine := by
  unfold Obligations.TrapEntersRoutine
  exact fun v ignored s => ⟨decode_trap ignored v, (exec_trap v s).trans (trapDispatch_eq _ _ _)⟩

/-- Settles O37: the routine of vector x25, whose effect is its definition. -/
theorem haltEndsRun : Obligations.HaltEndsRun := by
  unfold Obligations.HaltEndsRun
  exact ⟨by decide, fun s => rfl⟩

/-- Settles O38: the dispatcher's last arm, entered with R7 written. -/
theorem unknownVectorHalts : Obligations.UnknownVectorHalts := by
  unfold Obligations.UnknownVectorHalts
  intro v s hv
  rw [exec_trap, trapDispatch_unknown hv]
  rfl

/-- Settles O39: the read takes the character, which is not negative as a word and is its own low byte. -/
theorem consoleReadsCharacter : Obligations.ConsoleReadsCharacter := by
  unfold Obligations.ConsoleReadsCharacter
  intro s c rest hdue hi
  refine ⟨?_, ?_⟩
  · rw [exec_getc, consoleGet_of_cons (s := s.setReg .r7 s.pc) hdue hi, Ran.toNext_done, defineReg_eq,
      condOf_zeroExtend, State.hostTurn_setReg]
    simp [State.setReg]
  · rw [exec_in, consoleGet_of_cons (s := (s.setReg .r7 s.pc).put _) hdue hi, Ran.toNext_done, defineReg_eq,
      condOf_zeroExtend, lowByte_zeroExtend, State.hostTurn_put, State.hostTurn_setReg]
    simp [State.setReg, State.put]

/-- Settles O40: the read on an exhausted input, whose outcome `console_eof` and the schedule decide. -/
theorem consoleReadExhausted : Obligations.ConsoleReadExhausted := by
  unfold Obligations.ConsoleReadExhausted
  intro s hdue hi
  refine ⟨?_, ?_⟩
  · rw [exec_getc, consoleGet_of_nil (s := s.setReg .r7 s.pc) hdue hi]
    cases Config.params.consoleEof with
    | some w =>
      rw [Ran.toNext_done, defineReg_eq, State.hostTurn_setReg]
      simp [State.setReg]
    | none => by_cases hr : s.requestIn = none <;> simp [hr, State.setReg, State.requestTaken]
  · rw [exec_in, consoleGet_of_nil (s := (s.setReg .r7 s.pc).put _) hdue hi]
    cases Config.params.consoleEof with
    | some w =>
      rw [Ran.toNext_done, defineReg_eq, State.hostTurn_put, State.hostTurn_setReg]
      simp [State.setReg, State.put, lowByte]
    | none => by_cases hr : s.requestIn = none <;> simp [hr, State.setReg, State.put, State.requestTaken]

/-- Settles O41: the walk over the string's cells from the old R0 on, which the link in R7 leaves alone. -/
theorem stringRoutinesWriteString : Obligations.StringRoutinesWriteString := by
  unfold Obligations.StringRoutinesWriteString
  intro s n hn hq hmode hcells hzero
  have hroutine : ∀ packed, exec (.trap (stringVector packed)) s = .next { s with
      regs := s.regs.set .r7 s.pc, output := s.output ++ s.mem.stringBytes packed (s.reg .r0) n } := by
    intro packed
    rw [exec_string_walk, stringWalk_string (s := s.setReg .r7 s.pc) n (lt_walkBound hn s) hq.1 hq.2 hmode hcells hzero]
    rfl
  refine ⟨(hroutine false).trans ?_, (hroutine true).trans ?_⟩
  · simp [Memory.stringBytes, cellBytes, List.map_eq_flatMap]
  · simp [Memory.stringBytes, cellBytes]

/-- Settles O45: each of them comes to a wait with the request made or due, LDI at the latest in its data read. -/
theorem requestAbandonsWaits : Obligations.RequestAbandonsWaits := by
  unfold Obligations.RequestAbandonsWaits
  intro s hdue
  have hread : memRead kbsr s = .abandoned s.requestTaken := memRead_kbsr_of_requestDue hdue
  refine ⟨fun dr off ha => ?_, fun dr base off ha => ?_, fun dr off ha => ?_, fun sr off ha => ?_, ?_, ?_, ?_, ?_⟩
  · rw [exec, execLd, ha, hread, Ran.toNext_abandoned]
  · rw [exec, execLdr, ha, hread, Ran.toNext_abandoned]
  · by_cases hp : pcRelative off s = kbsr
    · rw [exec, execLdi, indirect, hp, hread, Ran.bind_abandoned, Ran.toNext_abandoned]
    · rw [exec_ldi_of_ne hp, show s.mem.peek (s.pc + sext off) = kbsr from ha.resolve_left hp, hread,
        Ran.toNext_abandoned]
  · rw [exec, execSti, indirect, ha, hread, Ran.toNext_abandoned]
  · rw [exec_getc, consoleGet_of_requestDue (s := s.setReg .r7 s.pc) hdue]
    rfl
  · exact (exec_string false s).trans (stringRoutine_of_requestDue (s := s.setReg .r7 s.pc) hdue _ false)
  · exact (exec_string true s).trans (stringRoutine_of_requestDue (s := s.setReg .r7 s.pc) hdue _ true)
  · rw [exec_in, consoleGet_of_requestDue (s := (s.setReg .r7 s.pc).put _) hdue]
    rfl
end


section
/-! PROOFS. The loader (spec/70_reset_and_hazards.md R170, R172 to R174). -/

namespace Sys2Proof.Machine

/-! ## The words of a payload -/

/-- Word `k` of a payload is its bytes `2k` and `2k + 1`, as far as both are there (R173). -/
theorem wordsBigEndian_getElem? (payload : List Byte) (k : Nat) :
    (wordsBigEndian payload)[k]? =
      if 2 * k + 1 < payload.length then some (payload.getD (2 * k) 0 ++ payload.getD (2 * k + 1) 0) else none := by
  induction payload using wordsBigEndian.induct generalizing k with
  | case1 hi lo rest ih =>
    cases k with
    | zero => simp [wordsBigEndian]
    | succ k =>
      rw [wordsBigEndian, List.getElem?_cons_succ, ih]
      simp only [List.length_cons, Nat.add_lt_add_iff_right, show 2 * (k + 1) = 2 * k + 1 + 1 by omega, List.getD_cons_succ]
  | case2 payload hshort =>
    match payload with
    | [] => simp [wordsBigEndian]
    | [_] => simp [wordsBigEndian]
    | hi :: lo :: rest => exact (hshort hi lo rest rfl).elim

/-- A last odd byte makes no word (decision D23). -/
theorem wordsBigEndian_append_odd (payload : List Byte) (b : Byte) (h : payload.length % 2 = 0) :
    wordsBigEndian (payload ++ [b]) = wordsBigEndian payload := by
  induction payload using wordsBigEndian.induct with
  | case1 hi lo rest ih =>
    have hrest : rest.length % 2 = 0 := by rw [List.length_cons, List.length_cons] at h; omega
    rw [List.cons_append, List.cons_append, wordsBigEndian, wordsBigEndian, ih hrest]
  | case2 payload hshort =>
    match payload with
    | [] => rfl
    | [_] => cases h
    | hi :: lo :: rest => exact (hshort hi lo rest rfl).elim

/-! ## The cells of loaded words -/

/-- Words stand from the origin on, each in its own cell; memory ends at 0xFFFF, so nothing wraps (R173). -/
theorem loadWords_peek (words : List Word) (m : Memory) (origin : Nat) (a : Word) :
    (loadWords m origin words).peek a =
      if origin ≤ a.toNat then (words[a.toNat - origin]?).getD (m.peek a) else m.peek a := by
  induction words generalizing m origin with
  | nil => simp [loadWords]
  | cons w rest ih =>
    have ha := a.isLt
    rw [loadWords]
    by_cases ho : origin < 65536
    · have haddr : a = BitVec.ofNat 16 origin ↔ a.toNat = origin := by
        rw [← BitVec.toNat_inj, BitVec.toNat_ofNat, Nat.mod_eq_of_lt ho]
      rw [if_pos ho, ih, Memory.peek_poke]
      rcases Nat.lt_trichotomy a.toNat origin with hlt | heq | hgt
      · rw [if_neg (by omega), if_neg (by rw [haddr]; omega), if_neg (by omega)]
      · rw [if_neg (by omega), if_pos (haddr.2 heq), if_pos (by omega), heq, Nat.sub_self]
        rfl
      · rw [if_pos (by omega), if_neg (by rw [haddr]; omega), if_pos (by omega),
          show a.toNat - origin = a.toNat - (origin + 1) + 1 by omega, List.getElem?_cons_succ]
    · rw [if_neg ho, if_neg (by omega)]

theorem loadWords_wf (words : List Word) {m : Memory} (h : m.wf) (origin : Nat) : (loadWords m origin words).wf := by
  induction words generalizing m origin with
  | nil => exact h
  | cons w rest ih =>
    rw [loadWords]
    split
    · exact ih (Memory.wf_poke h _ _) _
    · exact h

/-- The origin of an image is its first two bytes, big-endian. -/
theorem origin_toNat (hi lo : Byte) : (hi ++ lo).toNat = 256 * hi.toNat + lo.toNat := by
  rw [BitVec.toNat_append, ← Nat.shiftLeft_add_eq_or_of_lt lo.isLt, Nat.shiftLeft_eq]
  omega

/-! ## Images in order (R172) -/

theorem loadImages_append (images : List (List Byte)) (m : Memory) (last : List Byte) :
    loadImages m (images ++ [last]) = (loadImages m images).bind fun m' => loadImage m' last := by
  induction images generalizing m with
  | nil =>
    rw [List.nil_append, loadImages, loadImages, Option.bind_some]
    cases loadImage m last <;> rfl
  | cons image rest ih =>
    rw [List.cons_append, loadImages, loadImages]
    cases loadImage m image with
    | none => rfl
    | some m' => exact ih m'

end Sys2Proof.Machine

open Sys2Proof Sys2Proof.Machine

/-- Settles O57: the words of the payload, loaded from the origin on. -/
theorem loadImageCells : Obligations.LoadImageCells := by
  unfold Obligations.LoadImageCells
  intro m hi lo payload
  refine ⟨_, rfl, fun h => loadWords_wf _ h _, fun a => ?_⟩
  rw [loadWords_peek, wordsBigEndian_getElem?, origin_toNat]
  by_cases ho : 256 * hi.toNat + lo.toNat ≤ a.toNat
  · rw [if_pos ho]
    by_cases hl : 2 * (a.toNat - (256 * hi.toNat + lo.toNat)) + 1 < payload.length
    · rw [if_pos hl, if_pos ⟨ho, hl⟩, Option.getD_some]
    · rw [if_neg hl, if_neg (fun h => hl h.2), Option.getD_none]
  · rw [if_neg ho, if_neg (fun h => ho h.1)]

/-- Settles O58: the first three by definition; a last odd byte makes no word. -/
theorem loadImageEdgeCases : Obligations.LoadImageEdgeCases := by
  unfold Obligations.LoadImageEdgeCases
  refine ⟨fun _ => rfl, fun _ _ => rfl, fun _ _ _ => rfl, fun m hi lo payload b h => ?_⟩
  rw [loadImage, loadImage, wordsBigEndian_append_odd payload b h]

/-- Settles O59: by the list of images; the machine boots with the memory they leave. -/
theorem imagesLoadInOrder : Obligations.ImagesLoadInOrder := by
  unfold Obligations.ImagesLoadInOrder
  refine ⟨fun _ => rfl, rfl, fun m images last => loadImages_append images m last, fun images => ?_⟩
  rw [boot]
  cases loadImages State.reset.mem images <;> rfl
end


section
/-! PROOFS. What a poll does not look at, and that BR alone reads COND (spec/10_state.md R26): every other part of a cycle
does the same, COND apart, whatever COND is. -/

namespace Sys2Proof.Machine

variable {s t u : State}

/-! ## Updates that a poll neither sees nor undoes -/

/-- The update moves nothing that a poll looks at, and can be made after the poll as well as before. -/
structure PollBlind (f : State → State) : Prop where
  input : ∀ s, (f s).input = s.input
  pollAnswers : ∀ s, (f s).pollAnswers = s.pollAnswers
  draws : ∀ s, (f s).draws = s.draws
  setPollAnswers : ∀ s l, f { s with pollAnswers := l } = { f s with pollAnswers := l }
  setDraws : ∀ s n, f { s with draws := n } = { f s with draws := n }
  setInput : ∀ s l, f { s with input := l } = { f s with input := l }
  memWrite : ∀ s a v, f (s.memWrite a v) = (f s).memWrite a v

theorem pollBlind_setCond (c : Cond) : PollBlind (State.setCond · c) :=
  ⟨fun _ => rfl, fun _ => rfl, fun _ => rfl, fun _ _ => rfl, fun _ _ => rfl, fun _ _ => rfl, fun _ _ _ => rfl⟩

theorem pollBlind_put (bs : List Byte) : PollBlind (State.put · bs) :=
  ⟨fun _ => rfl, fun _ => rfl, fun _ => rfl, fun _ _ => rfl, fun _ _ => rfl, fun _ _ => rfl, fun _ _ _ => rfl⟩

theorem pollBlind_requestIn (r : Option Nat) : PollBlind fun s => { s with requestIn := r } :=
  ⟨fun _ => rfl, fun _ => rfl, fun _ => rfl, fun _ _ => rfl, fun _ _ => rfl, fun _ _ => rfl, fun _ _ _ => rfl⟩

section
variable {f : State → State} (hf : PollBlind f)
include hf

theorem PollBlind.pollAnswer (s : State) : (f s).pollAnswer = (s.pollAnswer.1, f s.pollAnswer.2) := by
  cases hl : s.pollAnswers with
  | nil =>
    rw [State.pollAnswer_of_nil hl, State.pollAnswer_of_nil ((hf.pollAnswers s).trans hl), hf.draws]
    exact congrArg (Prod.mk _) (hf.setDraws s _).symm
  | cons b more =>
    rw [State.pollAnswer_of_cons hl, State.pollAnswer_of_cons ((hf.pollAnswers s).trans hl)]
    exact congrArg (Prod.mk b) (hf.setPollAnswers s more).symm

theorem PollBlind.pollResult (s : State) : (f s).pollResult = (s.pollResult.1, f s.pollResult.2) := by
  rw [State.pollResult, State.pollResult, hf.pollAnswer]
  simp only [hf.input]
  cases s.pollAnswer.2.input with
  | nil => rfl
  | cons c rest =>
    cases s.pollAnswer.1 with
    | false => rfl
    | true => exact congrArg (Prod.mk (some c)) (hf.setInput s.pollAnswer.2 rest).symm

theorem PollBlind.latchKey (key : Option Byte) (s : State) : Machine.latchKey key (f s) = f (Machine.latchKey key s) := by
  cases key with
  | none => exact (hf.memWrite s _ _).symm
  | some c => rw [Machine.latchKey, Machine.latchKey, hf.memWrite, hf.memWrite]

end

/-! ## Parts of a cycle that do not read COND -/

/-- COND replaced in the state that a part of a cycle ends, is abandoned or stands blocked in. -/
def Ran.setCond {α : Type} (c : Cond) : Ran α → Ran α
  | .done a s => .done a (s.setCond c)
  | .abandoned s => .abandoned (s.setCond c)
  | .stuck (.consoleReadBlocked s) => .stuck (.consoleReadBlocked (s.setCond c))
  | .stuck .engineHalted => .stuck .engineHalted
  | .stuck .stringWalkNeverEnds => .stuck .stringWalkNeverEnds

/-- With another COND before it, the part comes to the same but for that COND. -/
def CondBlind {α : Type} (g : State → Ran α) : Prop := ∀ s c, g (s.setCond c) = (g s).setCond c

theorem CondBlind.bind {α β : Type} {g : State → Ran α} {k : α → State → Ran β} (hg : CondBlind g)
    (hk : ∀ a, CondBlind (k a)) : CondBlind fun s => (g s).bind k := by
  intro s c
  change (g (s.setCond c)).bind k = ((g s).bind k).setCond c
  rw [hg s c]
  cases g s with
  | done a u => exact hk a u c
  | abandoned u => rfl
  | stuck f => cases f <;> rfl

theorem condBlind_waitPoint : CondBlind waitPoint := by
  intro s c
  rcases waitPoint_cases s with ⟨hq, hw⟩ | ⟨hq, hw⟩
  · rw [hw, waitPoint_pass (by rwa [State.hostTurn_setCond]), State.hostTurn_setCond]
    rfl
  · rw [hw, waitPoint_stop (by rwa [State.hostTurn_setCond]), State.hostTurn_setCond]
    rfl

theorem condBlind_consolePoll : CondBlind consolePoll :=
  condBlind_waitPoint.bind fun _ s c => by
    rw [(pollBlind_setCond c).pollResult]
    rfl

theorem condBlind_memRead (a : Word) : CondBlind (memRead a) := by
  have hpeek : CondBlind fun s => Ran.done (s.mem.peek a) s := fun s c => rfl
  have hpoll : CondBlind kbsrPoll := condBlind_consolePoll.bind fun key s c => by
    rw [(pollBlind_setCond c).latchKey]
    rfl
  intro s c
  unfold memRead
  split
  · exact hpoll.bind (fun _ => hpeek) s c
  · exact hpeek s c

theorem condBlind_consoleGet (eof : Option Word) : CondBlind (consoleGet eof) :=
  condBlind_waitPoint.bind fun _ s c => by
    obtain ⟨_, _, _, _, _, input, _, _, _, _, schedule⟩ := s
    cases input with
    | cons b rest => rfl
    | nil =>
      cases eof with
      | some w => rfl
      | none => cases schedule <;> rfl

theorem condBlind_readCell (mode : StringReadMode) (a : Word) : CondBlind (readCell mode a) := by
  cases mode with
  | plain => intro s c; rw [readCell_plain, readCell_plain]; rfl
  | polling => intro s c; rw [readCell_polling, readCell_polling]; exact condBlind_memRead a s c

theorem condBlind_putEach (bs : List Byte) : CondBlind (putEach bs) := by
  induction bs with
  | nil => exact fun s c => rfl
  | cons b rest ih => exact condBlind_waitPoint.bind fun _ s c => ih (s.put [b]) c

theorem condBlind_stringWalk (mode : StringReadMode) (emit : Word → List Byte) (n : Nat) (a : Word) :
    CondBlind (stringWalk mode emit n a) := by
  induction n generalizing a with
  | zero => exact fun s c => rfl
  | succ n ih =>
    refine condBlind_waitPoint.bind fun _ => (condBlind_readCell mode a).bind fun w => ?_
    intro s c
    by_cases hw : w = 0
    · simp only [if_pos hw]; rfl
    · simp only [if_neg hw]
      exact (condBlind_putEach (emit w)).bind (fun _ => ih (a + 1)) s c

/-! ## Instructions that do not read COND -/

theorem defineReg_setCond (dr : Reg) (v : Word) (s : State) (c : Cond) :
    defineReg dr v (s.setCond c) = defineReg dr v s := by
  rw [defineReg_eq, defineReg_eq]; rfl

/-- A cycle whose last part does not read COND, and whose last update does not either. -/
theorem CondBlind.toNext {α : Type} {g : State → Ran α} {k : α → State → State} (hg : CondBlind g)
    (hk : ∀ a s c, (k a (s.setCond c)).setCond .zero = (k a s).setCond .zero) (s : State) (c : Cond) :
    eraseCond ((g (s.setCond c)).toNext k) = eraseCond ((g s).toNext k) := by
  rw [hg s c]
  cases g s with
  | done a u => exact congrArg Host.Outcome.next (hk a u c)
  | abandoned u => rfl
  | stuck f => cases f <;> rfl

theorem CondBlind.load {g : State → Ran Word} (hg : CondBlind g) (dr : Reg) (s : State) (c : Cond) :
    eraseCond ((g (s.setCond c)).toNext (defineReg dr)) = eraseCond ((g s).toNext (defineReg dr)) :=
  hg.toNext (fun v s c => by rw [defineReg_setCond]) s c

theorem eraseCond_trapDispatch (p : Params) (v : BitVec 8) (s : State) (c : Cond) :
    eraseCond (trapDispatch p v (s.setCond c)) = eraseCond (trapDispatch p v s) := by
  have hwalk := fun emit =>
    (condBlind_stringWalk p.stringReadMode emit (walkBound s) (s.reg .r0)).toNext
      (k := fun _ s' => trapReturn s') (fun _ _ _ => rfl) s c
  have hget := condBlind_consoleGet p.consoleEof
  rw [trapDispatch_eq, trapDispatch_eq]
  split; · exact hget.load .r0 s c
  split; · rfl
  split; · exact hwalk emitPuts
  split
  · exact hget.toNext (k := fun w s' => trapReturn (defineReg .r0 w (s'.put [lowByte w])))
      (fun w s c => by rw [show (s.setCond c).put [lowByte w] = (s.put [lowByte w]).setCond c from rfl, defineReg_setCond])
      (s.put p.inPrompt) c
  split; · exact hwalk emitPutsp
  split; · rfl
  rfl

end Sys2Proof.Machine

open Sys2Proof Sys2Proof.Machine

/-- Settles O52: by the instructions other than BR; a flag writer overwrites COND, the others carry it along. -/
theorem onlyBranchReadsCond : Obligations.OnlyBranchReadsCond := by
  unfold Obligations.OnlyBranchReadsCond
  intro i s c hi
  have hdefine : ∀ dr v, eraseCond (.next (defineReg dr v (s.setCond c))) = eraseCond (.next (defineReg dr v s)) :=
    fun dr v => by rw [defineReg_setCond]
  have hindirect : ∀ off, CondBlind (indirect off) := fun off s c => condBlind_memRead (pcRelative off s) s c
  cases i with
  | br n z p off => exact absurd rfl (hi n z p off)
  | addReg dr sr1 sr2 => exact hdefine dr _
  | addImm dr sr1 imm => exact hdefine dr _
  | ld dr off => exact (condBlind_memRead (pcRelative off s)).load dr s c
  | st sr off => rfl
  | jsr off => rfl
  | jsrr base => rfl
  | andReg dr sr1 sr2 => exact hdefine dr _
  | andImm dr sr1 imm => exact hdefine dr _
  | ldr dr base off => exact (condBlind_memRead (basePlusOffset base off s)).load dr s c
  | str sr base off => rfl
  | rti => rfl
  | not dr sr => exact hdefine dr _
  | ldi dr off => exact ((hindirect off).bind condBlind_memRead).load dr s c
  | sti sr off => exact (hindirect off).toNext (fun _ _ _ => rfl) s c
  | jmp base => rfl
  | res word => rfl
  | lea dr off => exact hdefine dr _
  | trap vect => exact eraseCond_trapDispatch Config.params vect (trapEntry s) c
end


section
/-! PROOFS. String walks under way (spec/44_trap_routines.md R133, R135; decisions D12, D13, D17): how a walk passes its
character cells with a request to come and without, when it polls KBSR, and which walks never end. -/

namespace Sys2Proof.Machine

variable {s t u : State} {mode : StringReadMode} {emit : Word → List Byte} {packed : Bool} {a : Word} {n b k : Nat}

/-! ## The bytes of a string -/

theorem Memory.stringBytes_zero (m : Memory) (packed : Bool) (a : Word) : m.stringBytes packed a 0 = [] := rfl

theorem Memory.stringBytes_succ (m : Memory) (packed : Bool) (a : Word) (n : Nat) :
    m.stringBytes packed a (n + 1) =
      m.stringBytes packed a n ++ cellBytes packed (m.peek (a + BitVec.ofNat 16 n)) := by
  simp [Memory.stringBytes, List.range_succ]

theorem cellBytes_length_pos (packed : Bool) (w : Word) : 0 < (cellBytes packed w).length := by
  unfold cellBytes; split <;> exact Nat.succ_pos _

theorem State.put_nil (s : State) : s.put [] = s := by simp [State.put]

theorem State.put_put (s : State) (bs cs : List Byte) : (s.put bs).put cs = s.put (bs ++ cs) := by
  simp [State.put, List.append_assoc]

/-- The address of the cell after the first `n`. -/
theorem add_ofNat_add_one (a : Word) (n : Nat) : a + BitVec.ofNat 16 n + 1 = a + BitVec.ofNat 16 (n + 1) := by
  rw [← BitVec.ofNat_add_ofNat, BitVec.add_assoc]
  rfl

/-- The cell as far from `a` as `c` is, modulo 2^16, is `c`. -/
theorem add_ofNat_sub (a c : Word) : a + BitVec.ofNat 16 (c - a).toNat = c := by
  rw [BitVec.ofNat_toNat, BitVec.setWidth_eq, BitVec.add_comm, BitVec.sub_add_cancel]

/-- The `n` cells from an address on are character cells, and reading them polls nothing. -/
def CharCells (mode : StringReadMode) (m : Memory) (a : Word) (n : Nat) : Prop :=
  ∀ i, i < n → m.peek (a + BitVec.ofNat 16 i) ≠ 0 ∧ (mode = .plain ∨ a + BitVec.ofNat 16 i ≠ kbsr)

theorem CharCells.init {m : Memory} (h : CharCells mode m a (n + 1)) : CharCells mode m a n :=
  fun i hi => h i (Nat.lt_succ_of_lt hi)

/-! ## The model's bound is beyond what is walked -/

theorem exists_walkBound_eq (hn : n < 65536) (s : State) : ∃ b, walkBound s = n + (b + 1) :=
  ⟨walkBound s - n - 1, by have := lt_walkBound hn s; omega⟩

/-! ## Passing character cells with no request to come -/

theorem stringWalk_pass (hq : s.noRequest) (hc : CharCells mode s.mem a n) (b : Nat) :
    stringWalk mode (cellBytes packed) (n + b) a s =
      stringWalk mode (cellBytes packed) b (a + BitVec.ofNat 16 n) (s.put (s.mem.stringBytes packed a n)) := by
  induction n generalizing b with
  | zero => simp [Memory.stringBytes_zero, State.put_nil]
  | succ n ih =>
    obtain ⟨hchar, hlookup⟩ := hc n (Nat.lt_succ_self n)
    rw [show n + 1 + b = n + (b + 1) by omega, ih hc.init, stringWalk_cell (s := s.put _) hq.1 hq.2 hlookup hchar,
      State.put_put, add_ofNat_add_one, State.put_mem, Memory.stringBytes_succ]

/-! ## Passing character cells with a request scheduled -/

/-- The state with the request due after `k` more points. -/
abbrev State.scheduled (s : State) (k : Nat) : State := { s with requestIn := some k }

theorem waitPoint_scheduled (hq : s.interruptRequested = false) (k : Nat) :
    waitPoint (s.scheduled (k + 1)) = .done () (s.scheduled k) :=
  waitPoint_pass (s := s.scheduled (k + 1)) hq

theorem stringWalk_scheduled_zero (s : State) (b : Nat) :
    stringWalk mode emit (b + 1) a (s.scheduled 0) = .abandoned s.requestTaken :=
  stringWalk_of_requestDue (s := s.scheduled 0) (fun h => h.2 rfl) mode emit b a

theorem lt_walkBound_scheduled (s : State) (k : Nat) : k < walkBound (s.scheduled k) := by
  unfold walkBound
  rw [Option.getD_some]
  omega

theorem exec_string_scheduled (packed : Bool) (s : State) (k : Nat) :
    exec (.trap (stringVector packed)) (s.scheduled k) =
      (stringWalk Config.params.stringReadMode (cellBytes packed) (walkBound (s.scheduled k)) (s.reg .r0)
        ((s.setReg .r7 s.pc).scheduled k)).toNext fun _ s' => s' :=
  exec_string_walk packed (s.scheduled k)

/-- A character cell has a point of its own and one before each of its bytes. -/
theorem stringWalk_cell_scheduled (hq : s.interruptRequested = false) (hlookup : mode = .plain ∨ a ≠ kbsr)
    (hchar : s.mem.peek a ≠ 0) (k : Nat) :
    stringWalk mode emit (b + 1) a (s.scheduled (k + 1)) =
      if k < (emit (s.mem.peek a)).length then .abandoned (s.put ((emit (s.mem.peek a)).take k)).requestTaken
      else stringWalk mode emit b (a + 1)
        ((s.put (emit (s.mem.peek a))).scheduled (k - (emit (s.mem.peek a)).length)) := by
  rw [stringWalk, waitPoint_scheduled hq, Ran.bind_done, readCell_lookup hlookup, Ran.bind_done, if_neg hchar,
    putEach_of_request _ hq]
  split <;> rfl

theorem stringWalk_end_scheduled (hq : s.interruptRequested = false) (hlookup : mode = .plain ∨ a ≠ kbsr)
    (hzero : s.mem.peek a = 0) (k : Nat) :
    stringWalk mode emit (b + 1) a (s.scheduled (k + 1)) = .done () (s.scheduled k) := by
  rw [stringWalk, waitPoint_scheduled hq, Ran.bind_done, readCell_lookup hlookup, Ran.bind_done, if_pos hzero]

/-- A request further off than the cells and their bytes lets them pass. -/
theorem stringWalk_pass_scheduled (hq : s.interruptRequested = false) (hc : CharCells mode s.mem a n) (b k : Nat) :
    stringWalk mode (cellBytes packed) (n + b) a (s.scheduled (n + (s.mem.stringBytes packed a n).length + k)) =
      stringWalk mode (cellBytes packed) b (a + BitVec.ofNat 16 n)
        ((s.put (s.mem.stringBytes packed a n)).scheduled k) := by
  induction n generalizing b k with
  | zero => simp [Memory.stringBytes_zero, State.put_nil]
  | succ n ih =>
    obtain ⟨hchar, hlookup⟩ := hc n (Nat.lt_succ_self n)
    have hpoints : n + 1 + (s.mem.stringBytes packed a (n + 1)).length + k =
        n + (s.mem.stringBytes packed a n).length +
          ((cellBytes packed (s.mem.peek (a + BitVec.ofNat 16 n))).length + k + 1) := by
      rw [Memory.stringBytes_succ, List.length_append]; omega
    rw [hpoints, show n + 1 + b = n + (b + 1) by omega, ih hc.init,
      stringWalk_cell_scheduled (s := s.put _) hq hlookup hchar, State.put_mem, if_neg (by omega), State.put_put,
      add_ofNat_add_one, ← Memory.stringBytes_succ, Nat.add_sub_cancel_left]

/-- A request in the cell after the first `n`, or just after its bytes, abandons the walk with `i` of these put. -/
theorem stringWalk_abandoned_in_cell (hq : s.interruptRequested = false) (hc : CharCells mode s.mem a (n + 1)) {i : Nat}
    (hi : i ≤ (cellBytes packed (s.mem.peek (a + BitVec.ofNat 16 n))).length) (hb : n + 1 < b) :
    stringWalk mode (cellBytes packed) b a (s.scheduled (n + (s.mem.stringBytes packed a n).length + (i + 1))) =
      .abandoned (s.put (s.mem.stringBytes packed a n ++
        (cellBytes packed (s.mem.peek (a + BitVec.ofNat 16 n))).take i)).requestTaken := by
  obtain ⟨hchar, hlookup⟩ := hc n (Nat.lt_succ_self n)
  obtain ⟨b, rfl⟩ : ∃ b', b = n + (b' + 1 + 1) := ⟨b - n - 2, by omega⟩
  rw [stringWalk_pass_scheduled hq hc.init, stringWalk_cell_scheduled (s := s.put _) hq hlookup hchar, State.put_mem]
  by_cases hlt : i < (cellBytes packed (s.mem.peek (a + BitVec.ofNat 16 n))).length
  · rw [if_pos hlt, State.put_put]
  · have heq : i = (cellBytes packed (s.mem.peek (a + BitVec.ofNat 16 n))).length := by omega
    rw [if_neg hlt, heq, Nat.sub_self, stringWalk_scheduled_zero, State.put_put, List.take_length]

/-- Every count of a string's bytes is where some schedule abandons the walk. -/
theorem exists_schedule_of_bytes (hq : s.interruptRequested = false) (hc : CharCells mode s.mem a n) {j : Nat}
    (hj : j ≤ (s.mem.stringBytes packed a n).length) :
    ∃ k, ∀ b, k < b → stringWalk mode (cellBytes packed) b a (s.scheduled k) =
      .abandoned (s.put ((s.mem.stringBytes packed a n).take j)).requestTaken := by
  induction n with
  | zero =>
    refine ⟨0, fun b hb => ?_⟩
    obtain ⟨b, rfl⟩ : ∃ b', b = b' + 1 := ⟨b - 1, by omega⟩
    rw [stringWalk_scheduled_zero, Memory.stringBytes_zero, List.take_nil, State.put_nil]
  | succ n ih =>
    rw [Memory.stringBytes_succ] at hj ⊢
    rw [List.length_append] at hj
    by_cases hle : j ≤ (s.mem.stringBytes packed a n).length
    · rw [List.take_append_of_le_length hle]
      exact ih hc.init hle
    · refine ⟨n + (s.mem.stringBytes packed a n).length + (j - (s.mem.stringBytes packed a n).length + 1), fun b hb => ?_⟩
      have hfirst : (s.mem.stringBytes packed a n).length ≤ j := by omega
      rw [stringWalk_abandoned_in_cell hq hc (by omega) (by omega), List.take_append, List.take_of_length_le hfirst]

/-- Every schedule that comes before the cells are passed abandons the walk after some count of their bytes. -/
theorem exists_bytes_of_schedule (hq : s.interruptRequested = false) (hc : CharCells mode s.mem a n)
    (hk : k ≤ n + (s.mem.stringBytes packed a n).length) (hb : k < b) :
    ∃ j, j ≤ (s.mem.stringBytes packed a n).length ∧ stringWalk mode (cellBytes packed) b a (s.scheduled k) =
      .abandoned (s.put ((s.mem.stringBytes packed a n).take j)).requestTaken := by
  induction n with
  | zero =>
    obtain rfl : k = 0 := by rw [Memory.stringBytes_zero] at hk; exact Nat.le_zero.1 hk
    obtain ⟨b, rfl⟩ : ∃ b', b = b' + 1 := ⟨b - 1, by omega⟩
    refine ⟨0, Nat.zero_le _, ?_⟩
    rw [stringWalk_scheduled_zero, Memory.stringBytes_zero, List.take_nil, State.put_nil]
  | succ n ih =>
    rw [Memory.stringBytes_succ] at hk ⊢
    rw [List.length_append] at hk ⊢
    by_cases hle : k ≤ n + (s.mem.stringBytes packed a n).length
    · obtain ⟨j, hj, hwalk⟩ := ih hc.init hle
      exact ⟨j, by omega, by rw [List.take_append_of_le_length hj]; exact hwalk⟩
    · obtain ⟨i, rfl⟩ : ∃ i, k = n + (s.mem.stringBytes packed a n).length + (i + 1) :=
        ⟨k - (n + (s.mem.stringBytes packed a n).length) - 1, by omega⟩
      refine ⟨(s.mem.stringBytes packed a n).length + i, by omega, ?_⟩
      rw [stringWalk_abandoned_in_cell hq hc (by omega) (by omega), List.take_length_add_append]

/-! ## Polling KBSR -/

theorem State.afterPoll_noRequest (h : s.noRequest) : s.afterPoll.noRequest := by
  have hturn := s.hostTurn_of_requestIn_none h.2
  exact ⟨by rw [State.afterPoll_interruptRequested, hturn, h.1], by rw [State.afterPoll_requestIn, hturn, h.2]⟩

/-- A poll whose point leaves the state as another's does, but for an update the poll is blind to, comes to the same but for
that update. -/
theorem PollBlind.polled {f : State → State} (hf : PollBlind f) (h : u.hostTurn = f s.hostTurn) :
    u.polledWord = s.polledWord ∧ u.afterPoll = f s.afterPoll := by
  rw [State.polledWord_eq, State.polledWord_eq, State.afterPoll, State.afterPoll, h, hf.pollResult]
  exact ⟨rfl, hf.latchKey _ _⟩

/-- The cell KBSR with no request to come: a key is a character cell of 0x8000, no key the end of the string. -/
theorem stringWalk_kbsr (hq : s.noRequest) (b : Nat) :
    stringWalk .polling emit (b + 1) kbsr s =
      if s.polledWord = 0 then .done () s.afterPoll
      else stringWalk .polling emit b (kbsr + 1) (s.afterPoll.put (emit s.polledWord)) := by
  have hafter := State.afterPoll_noRequest hq
  rw [stringWalk, waitPoint_of_noRequest hq.1 hq.2, Ran.bind_done, readCell_polling,
    memRead_kbsr_of_noRequestDue hq.due, Ran.bind_done, putEach_of_noRequest _ hafter.1 hafter.2, Ran.bind_done]

/-- The cell KBSR with a request that its poll is the next point of: nothing of the poll comes about. -/
theorem stringWalk_kbsr_scheduled_one (hq : s.interruptRequested = false) (b : Nat) :
    stringWalk .polling emit (b + 1) kbsr (s.scheduled 1) = .abandoned s.requestTaken := by
  have hread := memRead_kbsr_of_requestDue (s := s.scheduled 0) (fun h => h.2 rfl)
  rw [stringWalk, waitPoint_scheduled hq, Ran.bind_done, readCell_polling, hread, Ran.bind_abandoned]
  rfl

/-- The cell KBSR with a request just after its poll has found a key: the key is latched, no byte of it is put. -/
theorem stringWalk_kbsr_scheduled_two (hq : s.noRequest) (hkey : s.polledWord ≠ 0)
    (hbytes : 0 < (emit s.polledWord).length) (b : Nat) :
    stringWalk .polling emit (b + 1) kbsr (s.scheduled 2) = .abandoned s.afterPoll.requestTaken := by
  obtain ⟨hword, hafter⟩ := (pollBlind_requestIn (some 0)).polled (s := s) (u := s.scheduled 1)
    (by rw [s.hostTurn_of_requestIn_none hq.2]; rfl)
  have hread := memRead_kbsr_of_noRequestDue (s := s.scheduled 1) ⟨hq.1, by simp⟩
  rw [stringWalk, waitPoint_scheduled hq.1, Ran.bind_done, readCell_polling, hread, Ran.bind_done, hword, hafter,
    if_neg hkey, putEach_of_request _ (State.afterPoll_noRequest hq).1, if_pos hbytes, Ran.bind_abandoned, List.take_zero,
    State.put_nil]

/-! ## Walks that never end -/

/-- A request is made, or due after at most `k` more points. -/
def State.dueWithin (s : State) (k : Nat) : Prop :=
  s.interruptRequested = true ∨ ∃ j, j ≤ k ∧ s.requestIn = some j

/-- A point that lets the cycle pass brings the request nearer. -/
theorem State.dueWithin_hostTurn (h : s.dueWithin k) (hq : s.hostTurn.interruptRequested = false) :
    ∃ k', k = k' + 1 ∧ s.hostTurn.dueWithin k' := by
  rcases h with hi | ⟨j, hj, hr⟩
  · rw [s.hostTurn_interruptRequested_of hi] at hq; cases hq
  · cases j with
    | zero => rw [s.hostTurn_of_requestDue (.inr hr)] at hq; cases hq
    | succ j =>
      obtain ⟨k', rfl⟩ : ∃ k', k = k' + 1 := ⟨k - 1, by omega⟩
      exact ⟨k', rfl, .inr ⟨j, by omega, by rw [State.hostTurn, hr]⟩⟩

theorem State.dueWithin.mono {k' : Nat} (h : s.dueWithin k) (hk : k ≤ k') : s.dueWithin k' :=
  h.imp_right fun ⟨j, hj, hr⟩ => ⟨j, by omega, hr⟩

/-- The same of the point before a wait, whatever the wait is. -/
theorem State.dueWithin_passed (h : s.dueWithin k) (hq : s.hostTurn.interruptRequested = false) :
    s.hostTurn.dueWithin k := by
  obtain ⟨k', rfl, hturn⟩ := State.dueWithin_hostTurn h hq
  exact hturn.mono (Nat.le_succ k')

theorem dueWithin_readCell {w : Word} (hd : s.dueWithin k) (h : readCell mode a s = .done w t) : t.dueWithin k := by
  cases mode with
  | plain => rw [readCell_plain] at h; cases h; exact hd
  | polling =>
    rw [readCell_polling] at h
    by_cases ha : a = kbsr
    · rw [ha] at h
      by_cases hdue : s.noRequestDue
      · rw [memRead_kbsr_of_noRequestDue hdue] at h
        cases h
        have hturn := State.dueWithin_passed hd (s.hostTurn_of_noRequestDue hdue.1 hdue.2)
        unfold State.dueWithin at hturn ⊢
        rwa [State.afterPoll_interruptRequested, State.afterPoll_requestIn]
      · rw [memRead_kbsr_of_requestDue hdue] at h; cases h
    · rw [memRead_of_ne ha] at h; cases h; exact hd

theorem dueWithin_putEach {bs : List Byte} (hd : s.dueWithin k) (h : putEach bs s = .done () t) : t.dueWithin k := by
  induction bs generalizing s with
  | nil => cases h; exact hd
  | cons c rest ih =>
    rcases waitPoint_cases s with ⟨hq, hw⟩ | ⟨-, hw⟩ <;> rw [putEach, hw] at h
    · exact ih (s := s.hostTurn.put [c]) (State.dueWithin_passed hd hq) h
    · cases h

theorem readCell_ne_stuck (mode : StringReadMode) (a : Word) (s : State) (f : Fault) : readCell mode a s ≠ .stuck f := by
  cases mode with
  | plain => rw [readCell_plain]; exact fun h => by cases h
  | polling => rw [readCell_polling]; exact memRead_ne_stuck a s f

/-- A request to come ends a walk of more cells than there are points before it. -/
theorem stringWalk_ne_stuck_of_dueWithin (hd : s.dueWithin k) (hk : k < n) (f : Fault) :
    stringWalk mode emit n a s ≠ .stuck f := by
  induction n generalizing s a k with
  | zero => omega
  | succ n ih =>
    rcases waitPoint_cases s with ⟨hq, hw⟩ | ⟨-, hw⟩ <;> rw [stringWalk, hw]
    · obtain ⟨k', rfl, hturn⟩ := State.dueWithin_hostTurn hd hq
      rw [Ran.bind_done]
      cases hr : readCell mode a s.hostTurn with
      | done w x =>
        have hx := dueWithin_readCell hturn hr
        rw [Ran.bind_done]
        split
        · exact fun h => by cases h
        · cases hp : putEach (emit w) x with
          | done _ y => exact ih (dueWithin_putEach hx hp) (by omega)
          | abandoned y => exact fun h => by cases h
          | stuck g => exact absurd hp (putEach_ne_stuck _ _ _)
      | abandoned x => exact fun h => by cases h
      | stuck g => exact absurd hr (readCell_ne_stuck mode a _ g)
    · exact fun h => by cases h

/-- With no zero word in memory a walk in plain mode meets none, however far it goes (D13). -/
theorem stringWalk_plain_no_zero (hq : s.noRequest) (hm : ∀ c, s.mem.peek c ≠ 0) (n : Nat) (a : Word) :
    stringWalk .plain emit n a s = .stuck .stringWalkNeverEnds := by
  induction n generalizing a s with
  | zero => rfl
  | succ n ih =>
    rw [stringWalk_cell hq.1 hq.2 (.inl rfl) (hm a)]
    exact ih (s := s.put _) hq hm (a + 1)

/-- A walk in plain mode that does not end in a lap of memory has seen every cell, and no zero word. -/
theorem peek_ne_zero_of_plain_stuck {f : Fault} (hq : s.noRequest) (hn : 65536 ≤ n)
    (h : stringWalk .plain emit n a s = .stuck f) (c : Word) : s.mem.peek c ≠ 0 := by
  intro hc
  have hzero : s.mem.peek (a + BitVec.ofNat 16 (c - a).toNat) = 0 := by rw [add_ofNat_sub, hc]
  have hex : ∃ i, s.mem.peek (a + BitVec.ofNat 16 i) = 0 := ⟨_, hzero⟩
  have hlap : Nat.find hex < 65536 := lt_of_le_of_lt (Nat.find_min' hex hzero) (c - a).isLt
  have hend := stringWalk_string (emit := emit) (Nat.find hex) (bound := n) (by omega) hq.1 hq.2 (.inl rfl)
    (fun i hi => Nat.find_min hex hi) (Nat.find_spec hex)
  rw [h] at hend
  cases hend

theorem State.input_length_of_polledWord_ne_zero (h : s.polledWord ≠ 0) :
    s.input.length = s.afterPoll.input.length + 1 := by
  cases hkey : s.hostTurn.pollResult.1 with
  | none => exact absurd (State.afterPoll_of_no_key hkey).1 h
  | some c => exact congrArg List.length (State.afterPoll_of_key hkey).2.2

/-- In polling mode every lap takes a character from the input, and on an exhausted input the cell KBSR ends the string. -/
theorem stringWalk_polling_ne_stuck (hq : s.noRequest) (hn : 65536 * s.input.length + (kbsr - a).toNat < n) (f : Fault) :
    stringWalk .polling emit n a s ≠ .stuck f := by
  induction n generalizing a s with
  | zero => omega
  | succ n ih =>
    by_cases ha : a = kbsr
    · subst ha
      rw [stringWalk_kbsr hq]
      split
      · exact fun h => by cases h
      next hkey =>
        have htaken := State.input_length_of_polledWord_ne_zero hkey
        have hlap : (kbsr - (kbsr + 1)).toNat = 65535 := by decide
        exact ih (s := s.afterPoll.put _) (State.afterPoll_noRequest hq) (by rw [State.put_input, hlap]; omega)
    · by_cases hzero : s.mem.peek a = 0
      · rw [stringWalk_end hq.1 hq.2 (.inr ha) hzero]
        exact fun h => by cases h
      · rw [stringWalk_cell hq.1 hq.2 (.inr ha) hzero]
        have hnear : (kbsr - (a + 1)).toNat + 1 = (kbsr - a).toNat := by
          unfold kbsr at ha ⊢
          bv_omega
        exact ih (s := s.put _) hq (by rw [State.put_input]; omega)

end Sys2Proof.Machine

open Sys2Proof Sys2Proof.Machine

/-- Settles O43: in plain mode the walk meets only the words that stand in memory. -/
theorem stringWithoutZeroNeverEnds : Obligations.StringWithoutZeroNeverEnds := by
  unfold Obligations.StringWithoutZeroNeverEnds
  intro p s hmode hq hm
  have hroutine : ∀ packed, stringRoutine p packed s = .fault .stringWalkNeverEnds := fun packed => by
    rw [stringRoutine_eq, hmode, stringWalk_plain_no_zero hq hm, Ran.toNext_stuck]
  exact ⟨hroutine false, hroutine true⟩

/-- Settles O44: a walk the bound cuts has no request to come, is not in polling mode, and has seen all of memory. -/
theorem walkVerdictIsSound : Obligations.WalkVerdictIsSound := by
  unfold Obligations.WalkVerdictIsSound
  intro mode emit a s f h n
  have hq : s.noRequest := by
    by_contra hq
    have hdue : s.dueWithin (s.requestIn.getD 0) := by
      cases hi : s.interruptRequested with
      | true => exact .inl hi
      | false =>
        cases hr : s.requestIn with
        | none => exact absurd ⟨hi, hr⟩ hq
        | some k => exact .inr ⟨k, le_refl k, hr⟩
    exact stringWalk_ne_stuck_of_dueWithin hdue (by unfold walkBound; omega) f h
  cases mode with
  | plain =>
    have hm := peek_ne_zero_of_plain_stuck hq (by unfold walkBound; omega) h
    exact stringWalk_plain_no_zero hq hm n a
  | polling =>
    have hdistance := (kbsr - a).isLt
    exact absurd h (stringWalk_polling_ne_stuck hq (by unfold walkBound; omega) f)

/-- Settles O60: the points of a walk are one before each cell and one before each byte, so that a schedule names how many
bytes are put, and the other way round. -/
theorem requestAbandonsStringWalk : Obligations.RequestAbandonsStringWalk := by
  unfold Obligations.RequestAbandonsStringWalk
  intro packed s n hq hmode hchar bytes abandonedAfter
  have hc : CharCells Config.params.stringReadMode s.mem (s.reg .r0) n :=
    fun i hi => ⟨hchar i hi, hmode.imp_right fun h => h i (Nat.le_of_lt hi)⟩
  refine ⟨fun j hj => ?_, fun hn hzero k => ?_⟩
  · obtain ⟨k, hwalk⟩ := exists_schedule_of_bytes (s := s.setReg .r7 s.pc) hq hc hj
    refine ⟨k, ?_⟩
    rw [exec_string_scheduled, hwalk _ (lt_walkBound_scheduled s k)]
    rfl
  by_cases hk : k ≤ n + bytes.length
  · obtain ⟨j, hj, hwalk⟩ := exists_bytes_of_schedule (s := s.setReg .r7 s.pc) hq hc hk (lt_walkBound_scheduled s k)
    refine .inl ⟨j, hj, ?_⟩
    rw [exec_string_scheduled, hwalk]
    rfl
  · obtain ⟨later, rfl⟩ : ∃ later, k = n + bytes.length + (later + 1) := ⟨k - (n + bytes.length) - 1, by omega⟩
    obtain ⟨b, hb⟩ := exists_walkBound_eq hn (s.scheduled (n + bytes.length + (later + 1)))
    have hlast : Config.params.stringReadMode = .plain ∨ s.reg .r0 + BitVec.ofNat 16 n ≠ kbsr :=
      hmode.imp_right fun h => h n (le_refl n)
    have hwalk : stringWalk Config.params.stringReadMode (cellBytes packed) (n + (b + 1)) (s.reg .r0)
        ((s.setReg .r7 s.pc).scheduled (n + bytes.length + (later + 1))) =
          .done () (((s.setReg .r7 s.pc).put bytes).scheduled later) :=
      (stringWalk_pass_scheduled (s := s.setReg .r7 s.pc) hq hc (b + 1) (later + 1)).trans
        (stringWalk_end_scheduled (s := (s.setReg .r7 s.pc).put bytes) hq hlast hzero later)
    refine .inr ⟨later, ?_⟩
    rw [exec_string_scheduled, hb, hwalk]
    rfl

/-- Settles O42: the cells before KBSR are passed; there the poll's word ends the string or is a character cell, unless a
request comes in the poll or just after it. -/
theorem pollingWalkAtKbsr : Obligations.PollingWalkAtKbsr := by
  unfold Obligations.PollingWalkAtKbsr
  intro p packed s n hmode hq hn hchar hkbsr bytes
  have hc : CharCells .polling s.mem (s.reg .r0) n := fun i hi => ⟨(hchar i hi).1, .inr (hchar i hi).2⟩
  obtain ⟨hword, hafter⟩ := (pollBlind_put bytes).polled (s.hostTurn_put bytes)
  have hq' : (s.put bytes).noRequest := hq
  obtain ⟨b, hb⟩ := exists_walkBound_eq hn s
  have hroutine : stringRoutine p packed s =
      (stringWalk .polling (cellBytes packed) (b + 1) kbsr (s.put bytes)).toNext fun _ s' => s' := by
    rw [stringRoutine_eq, hmode, hb, stringWalk_pass hq hc, hkbsr]
  have hscheduled : ∀ k, ∃ b', stringRoutine p packed (s.scheduled (n + bytes.length + k)) =
      (stringWalk .polling (cellBytes packed) (b' + 1) kbsr ((s.put bytes).scheduled k)).toNext fun _ s' => s' := by
    intro k
    obtain ⟨b', hb'⟩ := exists_walkBound_eq hn (s.scheduled (n + bytes.length + k))
    refine ⟨b', ?_⟩
    rw [stringRoutine_eq, hmode, hb', ← hkbsr]
    exact congrArg (Ran.toNext · _) (stringWalk_pass_scheduled hq.1 hc (b' + 1) k)
  refine ⟨fun hnone => ?_, fun m hkey hm hcells hzero => ?_, ?_, fun hkey => ?_⟩
  · rw [hroutine, stringWalk_kbsr hq', hword, if_pos hnone, hafter, Ran.toNext_done]
    simp [State.put]
  · have hlong : m < b := by unfold walkBound at hb; omega
    have hreq := State.afterPoll_noRequest hq
    have hpast : ∀ i, i ≤ m → kbsr + 1 + BitVec.ofNat 16 i ≠ kbsr := by
      intro i hi
      unfold kbsr
      bv_omega
    have hrest := stringWalk_string (mode := .polling) (emit := cellBytes packed)
      (s := (s.afterPoll.put bytes).put (cellBytes packed 0x8000)) m hlong hreq.1 hreq.2 (.inr hpast) hcells hzero
    rw [hroutine, stringWalk_kbsr hq', hword, hkey, if_neg (by decide), hafter, hrest, Ran.toNext_done]
    simp [State.put, Memory.stringBytes]
  · obtain ⟨b', hb'⟩ := hscheduled 1
    refine hb'.trans ?_
    rw [stringWalk_kbsr_scheduled_one hq'.1]
    rfl
  · obtain ⟨b', hb'⟩ := hscheduled 2
    have hne : (s.put bytes).polledWord ≠ 0 := by rw [hword, hkey]; decide
    refine hb'.trans ?_
    rw [stringWalk_kbsr_scheduled_two hq' hne (cellBytes_length_pos _ _), hafter, Ran.toNext_abandoned]
    simp [State.put, State.requestTaken]
end
